-- ==== Sys2Proof/Word.lean ====
section
/-! DEFINITION. The word types of the machine (00_scope.md R6): bytes of memory, 16-bit words of registers and
addresses, and the number of a general register. -/

namespace Sys2Proof

/-- One byte of memory (R6: byte size 8 bits). -/
abbrev Byte := BitVec 8

/-- A 16-bit unsigned word: a general register, `pc`, `sp`, an address, an instruction word (R6, R8). -/
abbrev Word := BitVec 16

/-- The number of a general register, R0 to R7 (R6, R23). -/
abbrev Reg := Fin 8

end Sys2Proof
end

