-- ==== Sys2Proof/Syntax.lean ====
section
/-! DEFINITION. The instruction set: the 38 opcodes by name, and the instructions with their operands
(30_encoding.md R84, R90). Opcode values and bit positions are Decode's. -/

namespace Sys2Proof

/-- The 38 opcodes by name, in the order of 30_encoding.md R90. MOV and NOP are one opcode (R91). -/
inductive Op where
  | mov | movi | loadIndirect | storeIndirect | loadDirect | storeDirect
  | add | sub | mul | div | and | or | xor | not | shl | shr | cmp
  | addi | subi | muli | divi | andi | ori | xori | shli | shri | cmpi
  | jmp | jz | jnz | jc | jnc | jn | call | ret
  | push | pop | halt
deriving DecidableEq, Repr

/-- Every opcode, once, in the order of R90. -/
def Op.all : List Op :=
  [.mov, .movi, .loadIndirect, .storeIndirect, .loadDirect, .storeDirect] ++
  [.add, .sub, .mul, .div, .and, .or, .xor, .not, .shl, .shr, .cmp] ++
  [.addi, .subi, .muli, .divi, .andi, .ori, .xori, .shli, .shri, .cmpi] ++
  [.jmp, .jz, .jnz, .jc, .jnc, .jn, .call, .ret] ++
  [.push, .pop, .halt]

/-- The instructions: one constructor for each row of spec/opcode_table.json, with the operands of R84.
`imm7` and `imm4` are the fields as they stand in the word, not yet sign-extended; `addr` and `target` are the
extended word. -/
inductive Instr where
  /-- R160: `rd <- rs`, and a no-op when `rd = rs` (NOP). -/
  | mov (rd rs : Reg)
  /-- R161: `rd <- sext_7(imm7)`. -/
  | movi (rd : Reg) (imm7 : BitVec 7)
  /-- R162: `LOAD Rd, [Rs]`. -/
  | loadIndirect (rd rs : Reg)
  /-- R163: `STORE Rd, [Rs]`; `rd` is the data register. -/
  | storeIndirect (rd rs : Reg)
  /-- R164: `LOAD Rd, addr`. -/
  | loadDirect (rd : Reg) (addr : Word)
  /-- R165: `STORE Rd, addr`; `rd` is the data register. -/
  | storeDirect (rd : Reg) (addr : Word)
  /-- R182. -/
  | add (rd rs rt : Reg)
  /-- R183. -/
  | sub (rd rs rt : Reg)
  /-- R184. -/
  | mul (rd rs rt : Reg)
  /-- R185. -/
  | div (rd rs rt : Reg)
  /-- R186. -/
  | and (rd rs rt : Reg)
  /-- R187. -/
  | or (rd rs rt : Reg)
  /-- R188. -/
  | xor (rd rs rt : Reg)
  /-- R189. -/
  | not (rd rs : Reg)
  /-- R190. -/
  | shl (rd rs rt : Reg)
  /-- R191. -/
  | shr (rd rs rt : Reg)
  /-- R192. -/
  | cmp (rs rt : Reg)
  /-- R193. -/
  | addi (rd rs : Reg) (imm4 : BitVec 4)
  /-- R194. -/
  | subi (rd rs : Reg) (imm4 : BitVec 4)
  /-- R195. -/
  | muli (rd rs : Reg) (imm4 : BitVec 4)
  /-- R196. -/
  | divi (rd rs : Reg) (imm4 : BitVec 4)
  /-- R197. -/
  | andi (rd rs : Reg) (imm4 : BitVec 4)
  /-- R198. -/
  | ori (rd rs : Reg) (imm4 : BitVec 4)
  /-- R199. -/
  | xori (rd rs : Reg) (imm4 : BitVec 4)
  /-- R200. -/
  | shli (rd rs : Reg) (imm4 : BitVec 4)
  /-- R201. -/
  | shri (rd rs : Reg) (imm4 : BitVec 4)
  /-- R202. -/
  | cmpi (rs : Reg) (imm4 : BitVec 4)
  /-- R211. -/
  | jmp (target : Word)
  /-- R212. -/
  | jz (target : Word)
  /-- R213. -/
  | jnz (target : Word)
  /-- R214. -/
  | jc (target : Word)
  /-- R215. -/
  | jnc (target : Word)
  /-- R216. -/
  | jn (target : Word)
  /-- R217. -/
  | call (target : Word)
  /-- R218. -/
  | ret
  /-- R230: `rd` is the register pushed. -/
  | push (rd : Reg)
  /-- R231. -/
  | pop (rd : Reg)
  /-- R240. -/
  | halt
deriving DecidableEq, Repr

/-- The opcode of an instruction. -/
def Instr.op : Instr → Op
  | .mov _ _ => .mov
  | .movi _ _ => .movi
  | .loadIndirect _ _ => .loadIndirect
  | .storeIndirect _ _ => .storeIndirect
  | .loadDirect _ _ => .loadDirect
  | .storeDirect _ _ => .storeDirect
  | .add _ _ _ => .add
  | .sub _ _ _ => .sub
  | .mul _ _ _ => .mul
  | .div _ _ _ => .div
  | .and _ _ _ => .and
  | .or _ _ _ => .or
  | .xor _ _ _ => .xor
  | .not _ _ => .not
  | .shl _ _ _ => .shl
  | .shr _ _ _ => .shr
  | .cmp _ _ => .cmp
  | .addi _ _ _ => .addi
  | .subi _ _ _ => .subi
  | .muli _ _ _ => .muli
  | .divi _ _ _ => .divi
  | .andi _ _ _ => .andi
  | .ori _ _ _ => .ori
  | .xori _ _ _ => .xori
  | .shli _ _ _ => .shli
  | .shri _ _ _ => .shri
  | .cmpi _ _ => .cmpi
  | .jmp _ => .jmp
  | .jz _ => .jz
  | .jnz _ => .jnz
  | .jc _ => .jc
  | .jnc _ => .jnc
  | .jn _ => .jn
  | .call _ => .call
  | .ret => .ret
  | .push _ => .push
  | .pop _ => .pop
  | .halt => .halt

end Sys2Proof
end

