-- ==== Sys2Proof/Config.lean ====
section
/-! DEFINITION. The implementation parameters that the source does not fix (00_scope.md R7). The spec says that
"a model takes each of these as an argument": the machine carries them in the field `cfg` of its state, which no
step and no reset writes, so a statement about every state holds for every value of every parameter. MEM_INIT is
not here: it is what the memory of a state lists. The default values are Machine/Defaults' and Decode's. -/

namespace Sys2Proof

/-- OPCODE_MAP (R7, R90): the 6-bit value of each opcode, one entry an opcode. -/
abbrev OpcodeMap := List (BitVec 6 × Op)

/-- SHIFT16_C (R7): which bit C takes on a shift by exactly 16 (41_alu.md R140, R141, 90_conflicts.md C1). -/
inductive Shift16Carry where
  /-- `last_out`: SHL takes a[0] and SHR takes a[15]. -/
  | lastOut
  /-- `msb_lsb`: SHL takes a[15] and SHR takes a[0]. -/
  | msbLsb
deriving DecidableEq, Repr

/-- The parameters of R7 under the spec's names. -/
structure Config where
  /-- OPCODE_MAP: the opcode values (30_encoding.md R90). -/
  opcodeMap : OpcodeMap
  /-- STACK_TOP: `sp` after reset (10_state.md R30). -/
  stackTop : Word
  /-- CONSOLE_ADDR: the console-output address (20_memory.md R56). -/
  consoleAddr : Word
  /-- DIV0_N: the N flag after a division by zero (41_alu.md R135). -/
  div0N : Bool
  /-- SHIFT16_C: the carry of a shift by exactly 16 (41_alu.md R140, R141). -/
  shift16C : Shift16Carry
  /-- ICOUNT_BITS: the width of the instruction counter (10_state.md R36). -/
  icountBits : Nat
  /-- LOAD_BASE: where the host loads an image (70_reset_and_hazards.md R285). -/
  loadBase : Word
deriving DecidableEq, Repr

end Sys2Proof
end

