-- ==== Sys2Proof/WellFormed.lean ====
section
/-! DEFINITION. The checks on parameters and instructions. Operand widths need no check: the types of Syntax hold
exactly the values of the fields (R6, R84), so what is left is that OPCODE_MAP is a map the spec allows and that it
gives an instruction a value. -/

namespace Sys2Proof

/-- OPCODE_MAP as 92_eei_decisions.md allows it: "any injective map from the 38 instructions to 6-bit values, with
MOV/NOP at 0". No value and no opcode stands twice, every opcode has a value, and MOV's is 0. -/
def OpcodeMap.wf (m : OpcodeMap) : Bool :=
  decide ((m.map Prod.fst).Nodup) && decide ((m.map Prod.snd).Nodup) &&
    Op.all.all (fun o => decide (o ∈ m.map Prod.snd)) && decide ((0, Op.mov) ∈ m)

/-- An instruction is well-formed under a map that gives its opcode a value. Under a well-formed map every
instruction is. -/
def Instr.wf (m : OpcodeMap) (i : Instr) : Bool :=
  decide (i.op ∈ m.map Prod.snd)

/-- Parameters the spec allows (92_eei_decisions.md, Open parameters): a map as above, and "any positive width" for
the instruction counter. Every other parameter ranges over its whole type. -/
def Config.wf (c : Config) : Bool :=
  c.opcodeMap.wf && decide (0 < c.icountBits)

end Sys2Proof
end

