-- ==== Sys2Proof/Decode.lean ====
section
/-! DEFINITION. The decoder and the encoder (30_encoding.md, 40_fetch_decode.md R112, R113): the fields of a base
word, the opcode map, decoding of words and of bytes, and encoding from the same tables. -/

namespace Sys2Proof

/-- The default OPCODE_MAP: the table of 30_encoding.md R90.
DESIGN CHOICE of the spec (92_eei_decisions.md D2, log 3): only MOV's value 0 comes from the source. -/
def defaultOpcodeMap : OpcodeMap :=
  [(0x00, .mov), (0x01, .movi), (0x02, .loadIndirect), (0x03, .storeIndirect), (0x04, .loadDirect),
   (0x05, .storeDirect)] ++
  [(0x06, .add), (0x07, .sub), (0x08, .mul), (0x09, .div), (0x0A, .and), (0x0B, .or), (0x0C, .xor), (0x0D, .not),
   (0x0E, .shl), (0x0F, .shr), (0x10, .cmp)] ++
  [(0x11, .addi), (0x12, .subi), (0x13, .muli), (0x14, .divi), (0x15, .andi), (0x16, .ori), (0x17, .xori),
   (0x18, .shli), (0x19, .shri), (0x1A, .cmpi)] ++
  [(0x1B, .jmp), (0x1C, .jz), (0x1D, .jnz), (0x1E, .jc), (0x1F, .jnc), (0x20, .jn), (0x21, .call), (0x22, .ret)] ++
  [(0x23, .push), (0x24, .pop), (0x3F, .halt)]

/-- The opcode with the value `c`, if the map has one (R113). -/
def OpcodeMap.lookup : OpcodeMap → BitVec 6 → Option Op
  | [], _ => none
  | (k, o) :: m, c => if c = k then some o else OpcodeMap.lookup m c

/-- The value of the opcode `o`, if the map gives it one. -/
def OpcodeMap.codeOf : OpcodeMap → Op → Option (BitVec 6)
  | [], _ => none
  | (k, o') :: m, o => if o = o' then some k else OpcodeMap.codeOf m o

/-! ## Fields of the base word (R81, R82, R112; positions are decision D1) -/

/-- `op = w[15:10]`. -/
def opField (w : Word) : BitVec 6 := w.extractLsb' 10 6

/-- `rd = w[9:7]`. -/
def rdField (w : Word) : Reg := ⟨(w.extractLsb' 7 3).toNat, (w.extractLsb' 7 3).isLt⟩

/-- `rs = w[6:4]`. -/
def rsField (w : Word) : Reg := ⟨(w.extractLsb' 4 3).toNat, (w.extractLsb' 4 3).isLt⟩

/-- `rt[2:0]` of `rt = w[3:0]`: the register a register-form `rt` names; `rt[3]` is ignored (R81, R88). -/
def rtField (w : Word) : Reg := ⟨(w.extractLsb' 0 3).toNat, (w.extractLsb' 0 3).isLt⟩

/-- `imm4 = w[3:0]`. -/
def imm4Field (w : Word) : BitVec 4 := w.extractLsb' 0 4

/-- `imm7 = w[6:0]`. -/
def imm7Field (w : Word) : BitVec 7 := w.extractLsb' 0 7

/-! ## Lengths (R80, R89) -/

/-- The opcodes of extended form: LOAD direct, STORE direct, the branches and CALL (R80). RET is not one
(90_conflicts.md C2). -/
def Op.isExtended : Op → Bool
  | .loadDirect | .storeDirect | .jmp | .jz | .jnz | .jc | .jnc | .jn | .call => true
  | .mov | .movi | .loadIndirect | .storeIndirect | .add | .sub | .mul | .div | .and | .or | .xor | .not | .shl
  | .shr | .cmp | .addi | .subi | .muli | .divi | .andi | .ori | .xori | .shli | .shri | .cmpi | .ret | .push
  | .pop | .halt => false

/-- `len(op)` of a defined opcode, in bytes (R89). -/
def Op.length (o : Op) : Nat := if o.isExtended then 4 else 2

/-- `len` of the value of an opcode field: an illegal opcode has length 2 (R89). -/
def OpcodeMap.lengthOf (m : OpcodeMap) (c : BitVec 6) : Nat :=
  match m.lookup c with
  | some o => o.length
  | none => 2

/-! ## Decoding -/

/-- The instruction of opcode `o` whose base word is `w` and whose extended word is `ext`, with the operand roles of
R84 (decision D6). Unused fields, and `ext` where the form has none, are ignored (R88, decision D5). -/
def Op.assemble (o : Op) (w ext : Word) : Instr :=
  match o with
  | .mov => .mov (rdField w) (rsField w)
  | .movi => .movi (rdField w) (imm7Field w)
  | .loadIndirect => .loadIndirect (rdField w) (rsField w)
  | .storeIndirect => .storeIndirect (rdField w) (rsField w)
  | .loadDirect => .loadDirect (rdField w) ext
  | .storeDirect => .storeDirect (rdField w) ext
  | .add => .add (rdField w) (rsField w) (rtField w)
  | .sub => .sub (rdField w) (rsField w) (rtField w)
  | .mul => .mul (rdField w) (rsField w) (rtField w)
  | .div => .div (rdField w) (rsField w) (rtField w)
  | .and => .and (rdField w) (rsField w) (rtField w)
  | .or => .or (rdField w) (rsField w) (rtField w)
  | .xor => .xor (rdField w) (rsField w) (rtField w)
  | .not => .not (rdField w) (rsField w)
  | .shl => .shl (rdField w) (rsField w) (rtField w)
  | .shr => .shr (rdField w) (rsField w) (rtField w)
  | .cmp => .cmp (rsField w) (rtField w)
  | .addi => .addi (rdField w) (rsField w) (imm4Field w)
  | .subi => .subi (rdField w) (rsField w) (imm4Field w)
  | .muli => .muli (rdField w) (rsField w) (imm4Field w)
  | .divi => .divi (rdField w) (rsField w) (imm4Field w)
  | .andi => .andi (rdField w) (rsField w) (imm4Field w)
  | .ori => .ori (rdField w) (rsField w) (imm4Field w)
  | .xori => .xori (rdField w) (rsField w) (imm4Field w)
  | .shli => .shli (rdField w) (rsField w) (imm4Field w)
  | .shri => .shri (rdField w) (rsField w) (imm4Field w)
  | .cmpi => .cmpi (rsField w) (imm4Field w)
  | .jmp => .jmp ext
  | .jz => .jz ext
  | .jnz => .jnz ext
  | .jc => .jc ext
  | .jnc => .jnc ext
  | .jn => .jn ext
  | .call => .call ext
  | .ret => .ret
  | .push => .push (rdField w)
  | .pop => .pop (rdField w)
  | .halt => .halt

/-- IllegalOpcode(op): the base word's opcode field is not in OPCODE_MAP (R92; the name is 60_exceptions.md R252's). -/
structure IllegalOpcode where
  op : BitVec 6
deriving DecidableEq, Repr

/-- Decoding of a base word and the word after it, by the opcode field alone (R113). -/
def decodeWords (m : OpcodeMap) (w ext : Word) : Except IllegalOpcode Instr :=
  match m.lookup (opField w) with
  | some o => .ok (o.assemble w ext)
  | none => .error ⟨opField w⟩

/-- Why a list of bytes decodes to no instruction. -/
inductive DecodeError where
  /-- The opcode is outside the defined set (R92). -/
  | illegalOpcode (op : BitVec 6)
  /-- The list ends before the instruction does. The machine's own fetch never meets it: its memory has no end. -/
  | truncated
deriving DecidableEq, Repr

/-- The little-endian word of two bytes, the first at the lower address (20_memory.md R54). -/
def wordOfBytes (lo hi : Byte) : Word := hi ++ lo

/-- Decoding of bytes as they stand in memory (R83, R101): the instruction and the bytes after it. -/
def decode (m : OpcodeMap) : List Byte → Except DecodeError (Instr × List Byte)
  | b0 :: b1 :: rest =>
    let w := wordOfBytes b0 b1
    match m.lookup (opField w) with
    | none => .error (.illegalOpcode (opField w))
    | some o =>
      if o.isExtended then
        match rest with
        | e0 :: e1 :: rest' => .ok (o.assemble w (wordOfBytes e0 e1), rest')
        | _ => .error .truncated
      else .ok (o.assemble w 0, rest)
  | _ => .error .truncated

/-! ## Encoding (R95) -/

/-- R95: `encode(op, rd, rs, rt)`, each argument masked to the width of its field. -/
def packRegisterForm (op rd rs rt : Nat) : Word :=
  (BitVec.ofNat 16 (op % 64) <<< 10) ||| (BitVec.ofNat 16 (rd % 8) <<< 7) ||| (BitVec.ofNat 16 (rs % 8) <<< 4) |||
    BitVec.ofNat 16 (rt % 16)

/-- R95: `encode(op, rd, imm7)` of MOVI, each argument masked to the width of its field. -/
def packShortImmediate (op rd imm7 : Nat) : Word :=
  (BitVec.ofNat 16 (op % 64) <<< 10) ||| (BitVec.ofNat 16 (rd % 8) <<< 7) ||| BitVec.ofNat 16 (imm7 % 128)

/-- The base word of an instruction whose opcode value is `c`, unused fields 0 (R84). -/
def Instr.baseWord (c : BitVec 6) (i : Instr) : Word :=
  match i with
  | .mov rd rs => packRegisterForm c.toNat rd rs 0
  | .movi rd imm7 => packShortImmediate c.toNat rd imm7.toNat
  | .loadIndirect rd rs => packRegisterForm c.toNat rd rs 0
  | .storeIndirect rd rs => packRegisterForm c.toNat rd rs 0
  | .loadDirect rd _ => packRegisterForm c.toNat rd 0 0
  | .storeDirect rd _ => packRegisterForm c.toNat rd 0 0
  | .add rd rs rt => packRegisterForm c.toNat rd rs rt
  | .sub rd rs rt => packRegisterForm c.toNat rd rs rt
  | .mul rd rs rt => packRegisterForm c.toNat rd rs rt
  | .div rd rs rt => packRegisterForm c.toNat rd rs rt
  | .and rd rs rt => packRegisterForm c.toNat rd rs rt
  | .or rd rs rt => packRegisterForm c.toNat rd rs rt
  | .xor rd rs rt => packRegisterForm c.toNat rd rs rt
  | .not rd rs => packRegisterForm c.toNat rd rs 0
  | .shl rd rs rt => packRegisterForm c.toNat rd rs rt
  | .shr rd rs rt => packRegisterForm c.toNat rd rs rt
  | .cmp rs rt => packRegisterForm c.toNat 0 rs rt
  | .addi rd rs imm4 => packRegisterForm c.toNat rd rs imm4.toNat
  | .subi rd rs imm4 => packRegisterForm c.toNat rd rs imm4.toNat
  | .muli rd rs imm4 => packRegisterForm c.toNat rd rs imm4.toNat
  | .divi rd rs imm4 => packRegisterForm c.toNat rd rs imm4.toNat
  | .andi rd rs imm4 => packRegisterForm c.toNat rd rs imm4.toNat
  | .ori rd rs imm4 => packRegisterForm c.toNat rd rs imm4.toNat
  | .xori rd rs imm4 => packRegisterForm c.toNat rd rs imm4.toNat
  | .shli rd rs imm4 => packRegisterForm c.toNat rd rs imm4.toNat
  | .shri rd rs imm4 => packRegisterForm c.toNat rd rs imm4.toNat
  | .cmpi rs imm4 => packRegisterForm c.toNat 0 rs imm4.toNat
  | .jmp _ => packRegisterForm c.toNat 0 0 0
  | .jz _ => packRegisterForm c.toNat 0 0 0
  | .jnz _ => packRegisterForm c.toNat 0 0 0
  | .jc _ => packRegisterForm c.toNat 0 0 0
  | .jnc _ => packRegisterForm c.toNat 0 0 0
  | .jn _ => packRegisterForm c.toNat 0 0 0
  | .call _ => packRegisterForm c.toNat 0 0 0
  | .ret => packRegisterForm c.toNat 0 0 0
  | .push rd => packRegisterForm c.toNat rd 0 0
  | .pop rd => packRegisterForm c.toNat rd 0 0
  | .halt => packRegisterForm c.toNat 0 0 0

/-- The extended word of an instruction of extended form (R83, R87). -/
def Instr.extendedWord : Instr → Option Word
  | .loadDirect _ addr => some addr
  | .storeDirect _ addr => some addr
  | .jmp target => some target
  | .jz target => some target
  | .jnz target => some target
  | .jc target => some target
  | .jnc target => some target
  | .jn target => some target
  | .call target => some target
  | .mov _ _ | .movi _ _ | .loadIndirect _ _ | .storeIndirect _ _ | .add _ _ _ | .sub _ _ _ | .mul _ _ _ | .div _ _ _
  | .and _ _ _ | .or _ _ _ | .xor _ _ _ | .not _ _ | .shl _ _ _ | .shr _ _ _ | .cmp _ _ | .addi _ _ _ | .subi _ _ _
  | .muli _ _ _ | .divi _ _ _ | .andi _ _ _ | .ori _ _ _ | .xori _ _ _ | .shli _ _ _ | .shri _ _ _ | .cmpi _ _ | .ret
  | .push _ | .pop _ | .halt => none

/-- The low byte, the one at the lower address (20_memory.md R54). -/
def lowByte (w : Word) : Byte := w.extractLsb' 0 8

/-- The high byte (20_memory.md R54). -/
def highByte (w : Word) : Byte := w.extractLsb' 8 8

/-- A word as it stands in memory, low byte first (R101). -/
def bytesOfWord (w : Word) : List Byte := [lowByte w, highByte w]

/-- The words of an instruction whose opcode value is `c`: its base word, then its extended word if it has one. -/
def Instr.words (c : BitVec 6) (i : Instr) : List Word := i.baseWord c :: i.extendedWord.toList

/-- The bytes of an instruction under a map, low byte of each word first (R95, R101); none if the map gives its
opcode no value. -/
def encode (m : OpcodeMap) (i : Instr) : Option (List Byte) :=
  (m.codeOf i.op).map fun c => (i.words c).flatMap bytesOfWord

/-- The instruction in the lowest `nbits` bits of `w`, numbered as spec/opcode_table.json numbers them, every bit
above them 0: laid out in memory as two words, low byte first, and given to the decoder. -/
def decodeTableWord (nbits w : Nat) : Option Instr :=
  let v := w % 2 ^ nbits
  let bytes := bytesOfWord (BitVec.ofNat 16 v) ++ bytesOfWord (BitVec.ofNat 16 (v / 2 ^ 16))
  match decode defaultOpcodeMap bytes with
  | .ok (i, _) => some i
  | .error _ => none

end Sys2Proof
end

