-- ==== Sys2Proof/Machine/Defaults.lean ====
section
/-! DEFINITION. The default values of the parameters (00_scope.md R7) that the state after reset carries, and what a
byte of memory that nothing has written reads as. No step depends on these values: a step reads `cfg`. -/

namespace Sys2Proof.Machine

/-- DESIGN CHOICE of the spec (R7, 92_eei_decisions.md D15, log 4): STACK_TOP is 0xFFFE. -/
def defaultStackTop : Word := 0xFFFE

/-- DESIGN CHOICE of the spec (R7, D16, log 5): CONSOLE_ADDR is 0xF000. -/
def defaultConsoleAddr : Word := 0xF000

/-- DESIGN CHOICE of the spec (R7, D9, log 6): DIV0_N is 1. -/
def defaultDiv0N : Bool := true

/-- DESIGN CHOICE of the spec (R7, D11, log 7): SHIFT16_C is last_out. -/
def defaultShift16C : Shift16Carry := .lastOut

/-- DESIGN CHOICE of the spec (R7, D19, log 8): ICOUNT_BITS is 64. -/
def defaultIcountBits : Nat := 64

/-- DESIGN CHOICE of the spec (R7, D24, log 9): LOAD_BASE is the program start, 0x0000. -/
def defaultLoadBase : Word := 0x0000

/-- The parameters at their defaults (R7); the opcode map is `defaultOpcodeMap` (R90, log 3). -/
def defaultConfig : Config :=
  { opcodeMap := defaultOpcodeMap
    stackTop := defaultStackTop
    consoleAddr := defaultConsoleAddr
    div0N := defaultDiv0N
    shift16C := defaultShift16C
    icountBits := defaultIcountBits
    loadBase := defaultLoadBase }

/-- What a byte of memory that no entry lists reads as. DESIGN CHOICE (log 2): 0x00. MEM_INIT (20_memory.md R50,
D23) is any array: a state whose memory lists the bytes of an array other than 0 has that array. -/
def unlistedByte : Byte := 0x00

end Sys2Proof.Machine
end

