-- ==== Sys2Proof/Machine/State.lean ====
section
/-! DEFINITION. The state of the machine (10_state.md R39, 20_memory.md R50, R56), the reasons a step could stop, and
the state after reset (70_reset_and_hazards.md R280). -/

namespace Sys2Proof.Machine

/-- The flag register: Zero, Carry, Negative, Overflow (10_state.md R31). -/
structure Flags where
  z : Bool
  c : Bool
  n : Bool
  o : Bool
deriving DecidableEq, Repr

/-- The 65,536-byte array (20_memory.md R50) as the list of its bytes that differ from `unlistedByte`. -/
abbrev Memory := List Host.Cell

/-- The canonical form of a memory: addresses strictly rising and inside the address space, and no entry equal to what
an unlisted address reads as. `Memory.wfFrom lo` is the form of a tail whose addresses are at least `lo`. -/
def Memory.wfFrom (lo : Nat) : Memory → Bool
  | [] => true
  | (a, b) :: m => decide (lo ≤ a) && decide (a < 65536) && decide (b ≠ unlistedByte) && Memory.wfFrom (a + 1) m

/-- The canonical form of a memory. -/
def Memory.wf (m : Memory) : Bool := Memory.wfFrom 0 m

/-- The whole state: the core's (R39), the environment's `mem` and `out` (R50, R56), and the parameters (R7). -/
structure State where
  /-- The parameters of 00_scope.md R7, fixed for a run (40_fetch_decode.md R118): the model's own field, which no
  step and no reset writes (log 1). -/
  cfg : Config
  /-- The general registers x[0] to x[7] (R23). -/
  regs : Vector Word 8
  /-- The program counter (R26). -/
  pc : Word
  /-- The stack pointer (R29). -/
  sp : Word
  /-- The flag register (R31). -/
  flags : Flags
  /-- The engine is halted (R35). -/
  halted : Bool
  /-- The engine halted on an opcode outside the defined set (R37). -/
  illegal : Bool
  /-- The instruction counter, kept modulo 2^ICOUNT_BITS (R36). -/
  icount : Nat
  /-- Memory (R50). -/
  mem : Memory
  /-- The bytes emitted to the console, oldest first (R56). -/
  out : List Byte
deriving DecidableEq, Repr

/-- The reasons a step stops the machine with a fault: none. Safe. The one exceptional event of the hardware, an illegal
opcode, has an entry the spec describes (60_exceptions.md R251) and is a next state; no address faults
(20_memory.md R62, R63) and no instruction traps (R250). -/
inductive Fault where
deriving DecidableEq, Repr

/-- The reasons the model gives an instruction no meaning. -/
inductive Refusal where
  /-- The instruction of this mnemonic has no meaning yet. Raised by the refused arms of `exec`, of which none is left.
  Safe: the model would stop where the hardware goes on. -/
  | notModelled (mnemonic : String)
deriving DecidableEq, Repr

/-- The state right after reset (70_reset_and_hazards.md R280), with the parameters at their defaults (R7), MEM_INIT
all zeros (log 2) and nothing emitted (R56). -/
def State.reset : State :=
  { cfg := defaultConfig
    regs := Vector.replicate 8 0x0000
    pc := 0x0000
    sp := defaultConfig.stackTop
    flags := { z := false, c := false, n := false, o := false }
    halted := false
    illegal := false
    icount := 0
    mem := []
    out := [] }

end Sys2Proof.Machine
end

