-- ==== Sys2Proof/Machine/Ops.lean ====
section
/-! DEFINITION. The named operations over registers, `pc`, `sp`, flags and memory that the meanings are made of
(00_scope.md R10, 20_memory.md), and the one exceptional event (60_exceptions.md R251). All address arithmetic is
modulo 2^16 because addresses are 16-bit words (R27, R29, R62). -/

namespace Sys2Proof.Machine

/-! ## The byte array (R50), by plain address -/

/-- The byte the array holds at an address. -/
def Memory.read : Memory → Nat → Byte
  | [], _ => unlistedByte
  | (a, b) :: m, k => if k = a then b else Memory.read m k

/-- The array without an entry for one address. -/
def Memory.remove : Memory → Nat → Memory
  | [], _ => []
  | (a, b) :: m, k => if a = k then Memory.remove m k else (a, b) :: Memory.remove m k

/-- An entry put where the addresses keep rising, into an array with no entry for its address. -/
def Memory.insert : Memory → Nat → Byte → Memory
  | [], k, v => [(k, v)]
  | (a, b) :: m, k, v => if k < a then (k, v) :: (a, b) :: m else (a, b) :: Memory.insert m k v

/-- The array with the byte at one address replaced, in canonical form: writing `unlistedByte` leaves no entry. -/
def Memory.write (m : Memory) (k : Nat) (v : Byte) : Memory :=
  if v = unlistedByte then m.remove k else (m.remove k).insert k v

/-! ## The memory port (R20(1), R52 to R56) -/

/-- `MemRead(addr, 1)` (R52): no side effect at any address. -/
def State.readByte (s : State) (a : Word) : Byte := s.mem.read a.toNat

/-- `MemWrite(addr, 1, b)` (R53): a write to CONSOLE_ADDR emits the byte and stores nothing (90_conflicts.md C4). -/
def State.writeByte (s : State) (a : Word) (b : Byte) : State :=
  if a = s.cfg.consoleAddr then { s with out := s.out ++ [b] }
  else { s with mem := s.mem.write a.toNat b }

/-- `MemRead(addr, 2)` (R54): little-endian; the second byte is at `u16(addr + 1)` (decision D12). -/
def State.readWord (s : State) (a : Word) : Word := wordOfBytes (s.readByte a) (s.readByte (a + 1))

/-- `MemWrite(addr, 2, v)` (R55): two byte writes, low byte first (decisions D12, D17). -/
def State.writeWord (s : State) (a v : Word) : State :=
  (s.writeByte a (lowByte v)).writeByte (a + 1) (highByte v)

/-! ## Registers, flags, program counter -/

/-- `x[i]` (R23): every register reads as it was last written; none is hardwired. -/
def State.reg (s : State) (i : Reg) : Word := s.regs[i]

/-- `x[i] <- v` (R23). -/
def State.setReg (s : State) (i : Reg) (v : Word) : State := { s with regs := s.regs.set i v }

/-- `flags <- (z, c, n, o)`: all four at once (R32). -/
def State.setFlags (s : State) (f : Flags) : State := { s with flags := f }

/-- `pc <- target` (R28). -/
def State.setPc (s : State) (target : Word) : State := { s with pc := target }

/-- `sp <- v` (R29). -/
def State.setSp (s : State) (v : Word) : State := { s with sp := v }

/-- `pc <- u16(pc + 2)`: the advance past the base word (R111) and, in FetchExt, past the extended word (R115). -/
def State.advancePc (s : State) : State := { s with pc := s.pc + 2 }

/-- `icount <- (icount + 1) mod 2^ICOUNT_BITS` (R114). -/
def State.countStep (s : State) : State := { s with icount := (s.icount + 1) % 2 ^ s.cfg.icountBits }

/-- FetchExt and then `if taken: pc <- target`, the execute phase of a conditional branch (R212 to R216). -/
def State.branchIf (s : State) (taken : Bool) (target : Word) : State :=
  if taken then s.advancePc.setPc target else s.advancePc

/-! ## The stack (R29, R230 to R232): never checked -/

/-- `sp <- u16(sp - 2)`, then `MemWrite(sp, 2, v)`: the decrement comes before the write (R230). -/
def State.pushWord (s : State) (v : Word) : State :=
  (s.setSp (s.sp - 2)).writeWord (s.sp - 2) v

/-- `MemRead(sp, 2)` at the old `sp` (R231, R218). -/
def State.stackTop (s : State) : Word := s.readWord s.sp

/-- `sp <- u16(sp + 2)`: after the read (R231, R218). -/
def State.dropWord (s : State) : State := s.setSp (s.sp + 2)

/-! ## Halting and the exceptional event -/

/-- `halted <- 1` (R240). -/
def State.halt (s : State) : State := { s with halted := true }

/-- `raise IllegalOpcode(op)` (R251), the machine's only exceptional event: `halted` and `illegal` become 1 and nothing
else changes. No pc or status is saved and there is no handler (R255), and no return from it (R256): the offending
value stays readable in memory at `u16(pc - 2)` (R252). -/
def State.raiseIllegalOpcode (s : State) (_op : IllegalOpcode) : State :=
  { s with halted := true, illegal := true }

end Sys2Proof.Machine
end

