-- ==== Sys2Proof/Machine/Operands.lean ====
section
/-! DEFINITION. The operand forms (30_encoding.md R84 to R87): a register, a sign-extended short immediate, the
absolute word of extended form. The two sign extensions are the only ones (00_scope.md R9). -/

namespace Sys2Proof.Machine

/-- `sext_4` (R9): the immediate operand of the immediate-form ALU instructions (R85). -/
def sext4 (v : BitVec 4) : Word := v.signExtend 16

/-- `sext_7` (R9): the immediate of MOVI (R86). -/
def sext7 (v : BitVec 7) : Word := v.signExtend 16

/-- The address named by a register, `[Rs]`: the register's value as a byte address (R84). -/
def State.indirectAddress (s : State) (rs : Reg) : Word := s.reg rs

/-- The address named by an extended word: the word exactly as read (R87). -/
def directAddress (ext : Word) : Word := ext

end Sys2Proof.Machine
end

