-- ==== Sys2Proof/Machine/Flags.lean ====
section
/-! DEFINITION. Every flag computation of the ALU (41_alu.md R131 to R142), one function a rule. -/

namespace Sys2Proof.Machine

/-- `Zof(r)` (R131). -/
def zOf (r : Word) : Bool := decide (r = 0x0000)

/-- `Nof(r) = r[15]` (R131). -/
def nOf (r : Word) : Bool := r.getLsbD 15

/-- The 17-bit sum of `add` (R132). -/
def sum17 (a b : Word) : BitVec 17 := a.zeroExtend 17 + b.zeroExtend 17

/-- C of `add`: `s[16]` of the 17-bit sum (R132). -/
def addCarry (a b : Word) : Bool := (sum17 a b).getLsbD 16

/-- O of `add` (R132): the operands share a sign and the result's differs. -/
def addOverflow (a b r : Word) : Bool := (a.getLsbD 15 == b.getLsbD 15) && (r.getLsbD 15 != a.getLsbD 15)

/-- C of `sub`: an unsigned borrow (R133). -/
def subBorrow (a b : Word) : Bool := decide (a.toNat < b.toNat)

/-- O of `sub` (R133): the operand signs differ and the result's sign differs from `a`'s. -/
def subOverflow (a b r : Word) : Bool := (a.getLsbD 15 != b.getLsbD 15) && (r.getLsbD 15 != a.getLsbD 15)

/-- C of `mul`: the unsigned product exceeds 16 bits (R134, decision D10). -/
def mulCarry (a b : Word) : Bool := decide (0xFFFF < a.toNat * b.toNat)

/-- C of `shl` by `n` (R140): the last bit shifted out; none for a shift by 0 or by more than 16; SHIFT16_C chooses at
exactly 16 (decision D11, 90_conflicts.md C1, log 7). -/
def shlCarry (k : Shift16Carry) (a : Word) (n : Nat) : Bool :=
  if n = 0 then false
  else if n ≤ 15 then a.getLsbD (16 - n)
  else if n = 16 then (match k with | .lastOut => a.getLsbD 0 | .msbLsb => a.getLsbD 15)
  else false

/-- C of `shr` by `n` (R141), as `shlCarry`. -/
def shrCarry (k : Shift16Carry) (a : Word) (n : Nat) : Bool :=
  if n = 0 then false
  else if n ≤ 15 then a.getLsbD (n - 1)
  else if n = 16 then (match k with | .lastOut => a.getLsbD 15 | .msbLsb => a.getLsbD 0)
  else false

/-- Zero and Negative from the result, C and O given: a flag the source does not name for an operation is 0
(R130, decision D9). -/
def flagsFrom (r : Word) (c o : Bool) : Flags := { z := zOf r, c := c, n := nOf r, o := o }

/-- The flags of a division by zero (R135): Z = 0, C = 0, N = DIV0_N, O = 1 (decision D9, log 6). -/
def divZeroFlags (div0N : Bool) : Flags := { z := false, c := false, n := div0N, o := true }

end Sys2Proof.Machine
end

