-- ==== Sys2Proof/Machine/Alu.lean ====
section
/-! DEFINITION. The ALU (41_alu.md): pure functions of two 16-bit operands that give a 16-bit result and all four
flags (R130). The two that rest on a parameter take it as an argument. -/

namespace Sys2Proof.Machine

/-- What an ALU function returns (R130). -/
structure AluOut where
  result : Word
  flags : Flags
deriving DecidableEq, Repr

/-- `add(a, b)` (R132). -/
def aluAdd (a b : Word) : AluOut :=
  let r := (sum17 a b).extractLsb' 0 16
  { result := r, flags := flagsFrom r (addCarry a b) (addOverflow a b r) }

/-- `sub(a, b)` (R133). -/
def aluSub (a b : Word) : AluOut :=
  let r := a - b
  { result := r, flags := flagsFrom r (subBorrow a b) (subOverflow a b r) }

/-- `mul(a, b)` (R134): the low half of the unsigned 32-bit product. -/
def aluMul (a b : Word) : AluOut :=
  let p := a.zeroExtend 32 * b.zeroExtend 32
  let r := p.extractLsb' 0 16
  { result := r, flags := flagsFrom r (mulCarry a b) false }

/-- `div(a, b)` (R135): unsigned and truncating; by zero the sentinel 0xFFFF with Overflow. -/
def aluDiv (div0N : Bool) (a b : Word) : AluOut :=
  if b = 0x0000 then { result := 0xFFFF, flags := divZeroFlags div0N }
  else
    let r := BitVec.ofNat 16 (a.toNat / b.toNat)
    { result := r, flags := flagsFrom r false false }

/-- `and_op(a, b)` (R136); C and O are cleared (90_conflicts.md C3). -/
def aluAnd (a b : Word) : AluOut := { result := a &&& b, flags := flagsFrom (a &&& b) false false }

/-- `or_op(a, b)` (R137). -/
def aluOr (a b : Word) : AluOut := { result := a ||| b, flags := flagsFrom (a ||| b) false false }

/-- `xor_op(a, b)` (R138). -/
def aluXor (a b : Word) : AluOut := { result := a ^^^ b, flags := flagsFrom (a ^^^ b) false false }

/-- `not_op(a)` (R139). -/
def aluNot (a : Word) : AluOut := { result := ~~~a, flags := flagsFrom (~~~a) false false }

/-- `shl(a, b)` (R140): the whole operand `b` is the amount. -/
def aluShl (k : Shift16Carry) (a b : Word) : AluOut :=
  let n := b.toNat
  let r : Word := if n ≤ 15 then a <<< n else 0x0000
  { result := r, flags := flagsFrom r (shlCarry k a n) false }

/-- `shr(a, b)` (R141): logical, zeros shift in at bit 15. -/
def aluShr (k : Shift16Carry) (a b : Word) : AluOut :=
  let n := b.toNat
  let r : Word := if n ≤ 15 then a >>> n else 0x0000
  { result := r, flags := flagsFrom r (shrCarry k a n) false }

/-- `compare(a, b)` (R142): the flags of `sub`, and the result 0. -/
def aluCompare (a b : Word) : AluOut := { result := 0x0000, flags := (aluSub a b).flags }

/-- `x[rd] <- r` and `(Z, C, N, O) <- (z, c, n, o)`: the end of the templates R180 and R181. -/
def State.writeAlu (s : State) (rd : Reg) (x : AluOut) : State := (s.setReg rd x.result).setFlags x.flags

end Sys2Proof.Machine
end

