-- ==== Sys2Proof/Machine/ArithLogic.lean ====
section
/-! DEFINITION. The arithmetic, logical, shift and compare instructions (43_arith_logic.md): the register-form
template R180, the immediate-form template R181, NOT, CMP and CMPI. Both operands are read before the destination is
written, and all four flags are replaced. None raises an exception: division by zero is no fault (R135). -/

namespace Sys2Proof.Machine

/-- ADD (R182): template R180. -/
def execAdd (rd rs rt : Reg) (s : State) : Host.Outcome State Fault Refusal :=
  .next (s.writeAlu rd (aluAdd (s.reg rs) (s.reg rt)))

/-- SUB (R183): template R180. -/
def execSub (rd rs rt : Reg) (s : State) : Host.Outcome State Fault Refusal :=
  .next (s.writeAlu rd (aluSub (s.reg rs) (s.reg rt)))

/-- MUL (R184): template R180. -/
def execMul (rd rs rt : Reg) (s : State) : Host.Outcome State Fault Refusal :=
  .next (s.writeAlu rd (aluMul (s.reg rs) (s.reg rt)))

/-- DIV (R185): template R180. -/
def execDiv (rd rs rt : Reg) (s : State) : Host.Outcome State Fault Refusal :=
  .next (s.writeAlu rd (aluDiv s.cfg.div0N (s.reg rs) (s.reg rt)))

/-- AND (R186): template R180. -/
def execAnd (rd rs rt : Reg) (s : State) : Host.Outcome State Fault Refusal :=
  .next (s.writeAlu rd (aluAnd (s.reg rs) (s.reg rt)))

/-- OR (R187): template R180. -/
def execOr (rd rs rt : Reg) (s : State) : Host.Outcome State Fault Refusal :=
  .next (s.writeAlu rd (aluOr (s.reg rs) (s.reg rt)))

/-- XOR (R188): template R180. -/
def execXor (rd rs rt : Reg) (s : State) : Host.Outcome State Fault Refusal :=
  .next (s.writeAlu rd (aluXor (s.reg rs) (s.reg rt)))

/-- SHL (R190): template R180. -/
def execShl (rd rs rt : Reg) (s : State) : Host.Outcome State Fault Refusal :=
  .next (s.writeAlu rd (aluShl s.cfg.shift16C (s.reg rs) (s.reg rt)))

/-- SHR (R191): template R180. -/
def execShr (rd rs rt : Reg) (s : State) : Host.Outcome State Fault Refusal :=
  .next (s.writeAlu rd (aluShr s.cfg.shift16C (s.reg rs) (s.reg rt)))

/-- NOT (R189): one operand, read from `rs` (decision D6). -/
def execNot (rd rs : Reg) (s : State) : Host.Outcome State Fault Refusal :=
  .next (s.writeAlu rd (aluNot (s.reg rs)))

/-- CMP (R192): no register is written. -/
def execCmp (rs rt : Reg) (s : State) : Host.Outcome State Fault Refusal :=
  .next (s.setFlags (aluCompare (s.reg rs) (s.reg rt)).flags)

/-- ADDI (R193): template R181. -/
def execAddi (rd rs : Reg) (imm4 : BitVec 4) (s : State) : Host.Outcome State Fault Refusal :=
  .next (s.writeAlu rd (aluAdd (s.reg rs) (sext4 imm4)))

/-- SUBI (R194): template R181. -/
def execSubi (rd rs : Reg) (imm4 : BitVec 4) (s : State) : Host.Outcome State Fault Refusal :=
  .next (s.writeAlu rd (aluSub (s.reg rs) (sext4 imm4)))

/-- MULI (R195): template R181. -/
def execMuli (rd rs : Reg) (imm4 : BitVec 4) (s : State) : Host.Outcome State Fault Refusal :=
  .next (s.writeAlu rd (aluMul (s.reg rs) (sext4 imm4)))

/-- DIVI (R196): template R181. -/
def execDivi (rd rs : Reg) (imm4 : BitVec 4) (s : State) : Host.Outcome State Fault Refusal :=
  .next (s.writeAlu rd (aluDiv s.cfg.div0N (s.reg rs) (sext4 imm4)))

/-- ANDI (R197): template R181. -/
def execAndi (rd rs : Reg) (imm4 : BitVec 4) (s : State) : Host.Outcome State Fault Refusal :=
  .next (s.writeAlu rd (aluAnd (s.reg rs) (sext4 imm4)))

/-- ORI (R198): template R181. -/
def execOri (rd rs : Reg) (imm4 : BitVec 4) (s : State) : Host.Outcome State Fault Refusal :=
  .next (s.writeAlu rd (aluOr (s.reg rs) (sext4 imm4)))

/-- XORI (R199): template R181. -/
def execXori (rd rs : Reg) (imm4 : BitVec 4) (s : State) : Host.Outcome State Fault Refusal :=
  .next (s.writeAlu rd (aluXor (s.reg rs) (sext4 imm4)))

/-- SHLI (R200): template R181. -/
def execShli (rd rs : Reg) (imm4 : BitVec 4) (s : State) : Host.Outcome State Fault Refusal :=
  .next (s.writeAlu rd (aluShl s.cfg.shift16C (s.reg rs) (sext4 imm4)))

/-- SHRI (R201): template R181. -/
def execShri (rd rs : Reg) (imm4 : BitVec 4) (s : State) : Host.Outcome State Fault Refusal :=
  .next (s.writeAlu rd (aluShr s.cfg.shift16C (s.reg rs) (sext4 imm4)))

/-- CMPI (R202). -/
def execCmpi (rs : Reg) (imm4 : BitVec 4) (s : State) : Host.Outcome State Fault Refusal :=
  .next (s.setFlags (aluCompare (s.reg rs) (sext4 imm4)).flags)

end Sys2Proof.Machine
end

