-- ==== Sys2Proof/Machine/ControlTransfer.lean ====
section
/-! DEFINITION. The control-transfer instructions (44_control_transfer.md). Targets are absolute and unchecked (R210);
`target` is the extended word, read before any write of the instruction (R115, R66). None writes a flag or a general
register. -/

namespace Sys2Proof.Machine

/-- JMP (R211): PeekExt; `pc` is overwritten without first passing the extended word. -/
def execJmp (target : Word) (s : State) : Host.Outcome State Fault Refusal :=
  .next (s.setPc (directAddress target))

/-- JZ (R212): a branch if Z = 1. -/
def execJz (target : Word) (s : State) : Host.Outcome State Fault Refusal :=
  .next (s.branchIf s.flags.z (directAddress target))

/-- JNZ (R213): a branch if Z = 0. -/
def execJnz (target : Word) (s : State) : Host.Outcome State Fault Refusal :=
  .next (s.branchIf (!s.flags.z) (directAddress target))

/-- JC (R214): a branch if C = 1. -/
def execJc (target : Word) (s : State) : Host.Outcome State Fault Refusal :=
  .next (s.branchIf s.flags.c (directAddress target))

/-- JNC (R215): a branch if C = 0. -/
def execJnc (target : Word) (s : State) : Host.Outcome State Fault Refusal :=
  .next (s.branchIf (!s.flags.c) (directAddress target))

/-- JN (R216): a branch if N = 1. -/
def execJn (target : Word) (s : State) : Host.Outcome State Fault Refusal :=
  .next (s.branchIf s.flags.n (directAddress target))

/-- CALL (R217): FetchExt, push of the advanced `pc` (the return address), then the jump. -/
def execCall (target : Word) (s : State) : Host.Outcome State Fault Refusal :=
  .next ((s.advancePc.pushWord s.advancePc.pc).setPc (directAddress target))

/-- RET (R218): `pc <- MemRead(sp, 2)`, then `sp <- u16(sp + 2)`; no extended word (90_conflicts.md C2). -/
def execRet (s : State) : Host.Outcome State Fault Refusal :=
  .next (s.setPc s.stackTop).dropWord

end Sys2Proof.Machine
end

