-- ==== Sys2Proof/Machine/DataMovement.lean ====
section
/-! DEFINITION. The data movement instructions (42_data_movement.md). Each meaning is the execute phase: it begins
with `pc` already past the base word (40_fetch_decode.md R111). None writes a flag or raises an exception. -/

namespace Sys2Proof.Machine

/-- MOV / NOP (R160): one instruction with a branch; with `rd = rs` it has no effect. -/
def execMov (rd rs : Reg) (s : State) : Host.Outcome State Fault Refusal :=
  if rd = rs then .next s else .next (s.setReg rd (s.reg rs))

/-- MOVI (R161). -/
def execMovi (rd : Reg) (imm7 : BitVec 7) (s : State) : Host.Outcome State Fault Refusal :=
  .next (s.setReg rd (sext7 imm7))

/-- LOAD indirect (R162): the address is read before the register is written. -/
def execLoadIndirect (rd rs : Reg) (s : State) : Host.Outcome State Fault Refusal :=
  .next (s.setReg rd (s.readWord (s.indirectAddress rs)))

/-- STORE indirect (R163). -/
def execStoreIndirect (rd rs : Reg) (s : State) : Host.Outcome State Fault Refusal :=
  .next (s.writeWord (s.indirectAddress rs) (s.reg rd))

/-- LOAD direct (R164): FetchExt, then the load. -/
def execLoadDirect (rd : Reg) (addr : Word) (s : State) : Host.Outcome State Fault Refusal :=
  .next (s.advancePc.setReg rd (s.advancePc.readWord (directAddress addr)))

/-- STORE direct (R165): FetchExt, then the store. -/
def execStoreDirect (rd : Reg) (addr : Word) (s : State) : Host.Outcome State Fault Refusal :=
  .next (s.advancePc.writeWord (directAddress addr) (s.advancePc.reg rd))

end Sys2Proof.Machine
end

