-- ==== Sys2Proof/Machine/Halt.lean ====
section
/-! DEFINITION. HALT (46_halt.md). -/

namespace Sys2Proof.Machine

/-- HALT (R240): `halted <- 1`; `illegal` stays as it is. -/
def execHalt (s : State) : Host.Outcome State Fault Refusal :=
  .next s.halt

end Sys2Proof.Machine
end

