-- ==== Sys2Proof/Machine/Stack.lean ====
section
/-! DEFINITION. The stack instructions (45_stack.md). The stack pointer is never checked (R232). -/

namespace Sys2Proof.Machine

/-- PUSH (R230): `rd` is the register pushed (decision D6). -/
def execPush (rd : Reg) (s : State) : Host.Outcome State Fault Refusal :=
  .next (s.pushWord (s.reg rd))

/-- POP (R231): the read comes before the increment. -/
def execPop (rd : Reg) (s : State) : Host.Outcome State Fault Refusal :=
  .next (s.setReg rd s.stackTop).dropWord

end Sys2Proof.Machine
end

