-- ==== Sys2Proof/Machine/Dispatch.lean ====
section
/-! DEFINITION. Dispatch (40_fetch_decode.md R113): the execute phase of every instruction, one arm a constructor.
The state is the one after the fetch of the base word (R111). -/

namespace Sys2Proof.Machine

def exec (i : Instr) (s : State) : Host.Outcome State Fault Refusal :=
  match i with
  | .mov rd rs => Sys2Proof.Machine.execMov rd rs s
  | .movi rd imm7 => Sys2Proof.Machine.execMovi rd imm7 s
  | .loadIndirect rd rs => Sys2Proof.Machine.execLoadIndirect rd rs s
  | .storeIndirect rd rs => Sys2Proof.Machine.execStoreIndirect rd rs s
  | .loadDirect rd addr => Sys2Proof.Machine.execLoadDirect rd addr s
  | .storeDirect rd addr => Sys2Proof.Machine.execStoreDirect rd addr s
  | .add rd rs rt => Sys2Proof.Machine.execAdd rd rs rt s
  | .sub rd rs rt => Sys2Proof.Machine.execSub rd rs rt s
  | .mul rd rs rt => Sys2Proof.Machine.execMul rd rs rt s
  | .div rd rs rt => Sys2Proof.Machine.execDiv rd rs rt s
  | .and rd rs rt => Sys2Proof.Machine.execAnd rd rs rt s
  | .or rd rs rt => Sys2Proof.Machine.execOr rd rs rt s
  | .xor rd rs rt => Sys2Proof.Machine.execXor rd rs rt s
  | .not rd rs => Sys2Proof.Machine.execNot rd rs s
  | .shl rd rs rt => Sys2Proof.Machine.execShl rd rs rt s
  | .shr rd rs rt => Sys2Proof.Machine.execShr rd rs rt s
  | .cmp rs rt => Sys2Proof.Machine.execCmp rs rt s
  | .addi rd rs imm4 => Sys2Proof.Machine.execAddi rd rs imm4 s
  | .subi rd rs imm4 => Sys2Proof.Machine.execSubi rd rs imm4 s
  | .muli rd rs imm4 => Sys2Proof.Machine.execMuli rd rs imm4 s
  | .divi rd rs imm4 => Sys2Proof.Machine.execDivi rd rs imm4 s
  | .andi rd rs imm4 => Sys2Proof.Machine.execAndi rd rs imm4 s
  | .ori rd rs imm4 => Sys2Proof.Machine.execOri rd rs imm4 s
  | .xori rd rs imm4 => Sys2Proof.Machine.execXori rd rs imm4 s
  | .shli rd rs imm4 => Sys2Proof.Machine.execShli rd rs imm4 s
  | .shri rd rs imm4 => Sys2Proof.Machine.execShri rd rs imm4 s
  | .cmpi rs imm4 => Sys2Proof.Machine.execCmpi rs imm4 s
  | .jmp target => Sys2Proof.Machine.execJmp target s
  | .jz target => Sys2Proof.Machine.execJz target s
  | .jnz target => Sys2Proof.Machine.execJnz target s
  | .jc target => Sys2Proof.Machine.execJc target s
  | .jnc target => Sys2Proof.Machine.execJnc target s
  | .jn target => Sys2Proof.Machine.execJn target s
  | .call target => Sys2Proof.Machine.execCall target s
  | .ret => Sys2Proof.Machine.execRet s
  | .push rd => Sys2Proof.Machine.execPush rd s
  | .pop rd => Sys2Proof.Machine.execPop rd s
  | .halt => Sys2Proof.Machine.execHalt s

end Sys2Proof.Machine
end

