-- ==== Sys2Proof/Machine/Fetch.lean ====
section
/-! DEFINITION. The fetch half of the step (40_fetch_decode.md R111 to R115): reading and decoding the instruction at
`pc`, and the state its execute phase begins in. -/

namespace Sys2Proof.Machine

/-- The base word, at `pc` (R111). -/
def State.fetchBase (s : State) : Word := s.readWord s.pc

/-- The word after the base word, at `u16(pc + 2)` (R83): what FetchExt and PeekExt read (R115). Reading it early, and
for every instruction, cannot be told apart (log 20): a read has no side effect (R52) and no instruction writes before it
(R66). -/
def State.fetchExt (s : State) : Word := s.readWord (s.pc + 2)

/-- The instruction at `pc`, or the illegal opcode that stands there (R112, R113). -/
def State.fetchDecode (s : State) : Except IllegalOpcode Instr :=
  decodeWords s.cfg.opcodeMap s.fetchBase s.fetchExt

/-- The state in which the execute phase begins: `pc` past the base word (R111), and the step counted (R114). -/
def State.beginExecute (s : State) : State := s.advancePc.countStep

/-- Two words stored as bytes at `a`, low bytes first, straight into the array as the host's load does (R286). -/
def State.placeWords (s : State) (a base ext : Word) : State :=
  { s with
    mem := (((s.mem.write a.toNat (lowByte base)).write (a + 1).toNat (highByte base)).write (a + 2).toNat
      (lowByte ext)).write (a + 3).toNat (highByte ext) }

end Sys2Proof.Machine
end

