-- ==== Sys2Proof/Machine/Step.lean ====
section
/-! DEFINITION. The step (40_fetch_decode.md R116), and the placing of one instruction where the step fetches. -/

namespace Sys2Proof.Machine

/-- The whole step (R116): a halted core does nothing (R110); otherwise the instruction at `pc` is fetched, decoded and
executed, or the illegal opcode there raises the one exceptional event (R251). It depends on the state alone (R118). -/
def step (s : State) : Host.Outcome State Fault Refusal :=
  if s.halted then .next s
  else
    match s.fetchDecode with
    | .ok i => exec i s.beginExecute
    | .error e => .next (s.beginExecute.raiseIllegalOpcode e)

/-- The state with one instruction placed at `pc`: bits of `w` below `nbits` numbered as spec/opcode_table.json numbers
them, the bits above them 0, up to the longest instruction (4 bytes, R80). Stored straight into the array, as the
host's load stores an image (R286, log 19). The core must be running to fetch, so `halted` is 0 in the result. -/
def State.withFetchWord (s : State) (nbits w : Nat) : State :=
  let v := w % 2 ^ nbits
  { s.placeWords s.pc (BitVec.ofNat 16 v) (BitVec.ofNat 16 (v / 2 ^ 16)) with halted := false }

end Sys2Proof.Machine
end

