-- ==== Sys2Proof/Machine/Assembly.lean ====
section
/-! DEFINITION. The assembly form of an instruction (30_encoding.md R91, R97 to R101), over a line already split into a
mnemonic and operands. Reading characters and the values of labels are AsmText's; here a label
stands for its value. -/

namespace Sys2Proof.Machine

/-- The mnemonics of R100. LOAD and STORE each stand for two opcodes (R98); NOP is an alias (R101). -/
inductive Mnemonic where
  | NOP | MOV | MOVI | LOAD | STORE
  | ADD | SUB | MUL | DIV | AND | OR | XOR | NOT | SHL | SHR | CMP
  | ADDI | SUBI | MULI | DIVI | ANDI | ORI | XORI | SHLI | SHRI | CMPI
  | JMP | JZ | JNZ | JC | JNC | JN | CALL | RET
  | PUSH | POP | HALT
deriving DecidableEq, Repr

/-- An operand (R97). -/
inductive AsmOperand where
  /-- `Rn`. -/
  | reg (r : Reg)
  /-- `[Rn]`. -/
  | indirect (r : Reg)
  /-- A literal, or the value of a symbol. -/
  | value (v : Int)
deriving DecidableEq, Repr

/-- One line of assembly: a mnemonic and its operands. -/
structure AsmLine where
  mnemonic : Mnemonic
  operands : List AsmOperand
deriving DecidableEq, Repr

/-- MOVI's immediate: -64 to 63, anything else an assembly error (R99). -/
def asmImm7 (v : Int) : Option (BitVec 7) := if -64 ≤ v ∧ v ≤ 63 then some (BitVec.ofInt 7 v) else none

/-- An immediate-form ALU instruction's immediate: -8 to 7 (R99). -/
def asmImm4 (v : Int) : Option (BitVec 4) := if -8 ≤ v ∧ v ≤ 7 then some (BitVec.ofInt 4 v) else none

/-- The operand of an extended word: 0 to 65535 (R99, decision D20). -/
def asmWord (v : Int) : Option Word := if 0 ≤ v ∧ v ≤ 65535 then some (BitVec.ofInt 16 v) else none

/-- The operands of `OP Rd, Rs, Rt` (R100). -/
def asmReg3 (k : Reg → Reg → Reg → Instr) : List AsmOperand → Option Instr
  | [.reg rd, .reg rs, .reg rt] => some (k rd rs rt)
  | _ => none

/-- The operands of `OP Rd, Rs, imm` (R100). -/
def asmReg2Imm4 (k : Reg → Reg → BitVec 4 → Instr) : List AsmOperand → Option Instr
  | [.reg rd, .reg rs, .value v] => (asmImm4 v).map (k rd rs)
  | _ => none

/-- The operands of `OP Ra, Rb` (R100). -/
def asmReg2 (k : Reg → Reg → Instr) : List AsmOperand → Option Instr
  | [.reg a, .reg b] => some (k a b)
  | _ => none

/-- The operands of `OP Rd` (R100). -/
def asmReg1 (k : Reg → Instr) : List AsmOperand → Option Instr
  | [.reg a] => some (k a)
  | _ => none

/-- The operands of `OP target` (R100). -/
def asmTarget (k : Word → Instr) : List AsmOperand → Option Instr
  | [.value v] => (asmWord v).map k
  | _ => none

/-- No operands (R100). -/
def asmNone (i : Instr) : List AsmOperand → Option Instr
  | [] => some i
  | _ => none

/-- LOAD and STORE: `[Rx]` present is the indirect opcode, absent is the direct one (R98). -/
def asmLoadStore (indirect : Reg → Reg → Instr) (direct : Reg → Word → Instr) : List AsmOperand → Option Instr
  | [.reg rd, .indirect rs] => some (indirect rd rs)
  | [.reg rd, .value v] => (asmWord v).map (direct rd)
  | _ => none

/-- `MOVI Rd, imm` (R100). -/
def asmMovi : List AsmOperand → Option Instr
  | [.reg rd, .value v] => (asmImm7 v).map (.movi rd)
  | _ => none

/-- `CMPI Rs, imm` (R100). -/
def asmCmpi : List AsmOperand → Option Instr
  | [.reg rs, .value v] => (asmImm4 v).map (.cmpi rs)
  | _ => none

/-- The instruction a line assembles to, or none where the line is an assembly error (R99, R100). -/
def AsmLine.assemble (l : AsmLine) : Option Instr :=
  match l.mnemonic with
  | .NOP => asmNone (.mov 0 0) l.operands
  | .MOV => asmReg2 .mov l.operands
  | .MOVI => asmMovi l.operands
  | .LOAD => asmLoadStore .loadIndirect .loadDirect l.operands
  | .STORE => asmLoadStore .storeIndirect .storeDirect l.operands
  | .ADD => asmReg3 .add l.operands
  | .SUB => asmReg3 .sub l.operands
  | .MUL => asmReg3 .mul l.operands
  | .DIV => asmReg3 .div l.operands
  | .AND => asmReg3 .and l.operands
  | .OR => asmReg3 .or l.operands
  | .XOR => asmReg3 .xor l.operands
  | .NOT => asmReg2 .not l.operands
  | .SHL => asmReg3 .shl l.operands
  | .SHR => asmReg3 .shr l.operands
  | .CMP => asmReg2 .cmp l.operands
  | .ADDI => asmReg2Imm4 .addi l.operands
  | .SUBI => asmReg2Imm4 .subi l.operands
  | .MULI => asmReg2Imm4 .muli l.operands
  | .DIVI => asmReg2Imm4 .divi l.operands
  | .ANDI => asmReg2Imm4 .andi l.operands
  | .ORI => asmReg2Imm4 .ori l.operands
  | .XORI => asmReg2Imm4 .xori l.operands
  | .SHLI => asmReg2Imm4 .shli l.operands
  | .SHRI => asmReg2Imm4 .shri l.operands
  | .CMPI => asmCmpi l.operands
  | .JMP => asmTarget .jmp l.operands
  | .JZ => asmTarget .jz l.operands
  | .JNZ => asmTarget .jnz l.operands
  | .JC => asmTarget .jc l.operands
  | .JNC => asmTarget .jnc l.operands
  | .JN => asmTarget .jn l.operands
  | .CALL => asmTarget .call l.operands
  | .RET => asmNone .ret l.operands
  | .PUSH => asmReg1 .push l.operands
  | .POP => asmReg1 .pop l.operands
  | .HALT => asmNone .halt l.operands

/-- The line a disassembler prints for an instruction (R91, R100): an opcode-0 word with `rd = rs` is `NOP`. -/
def disassemble : Instr → AsmLine
  | .mov rd rs => if rd = rs then ⟨.NOP, []⟩ else ⟨.MOV, [.reg rd, .reg rs]⟩
  | .movi rd imm7 => ⟨.MOVI, [.reg rd, .value imm7.toInt]⟩
  | .loadIndirect rd rs => ⟨.LOAD, [.reg rd, .indirect rs]⟩
  | .storeIndirect rd rs => ⟨.STORE, [.reg rd, .indirect rs]⟩
  | .loadDirect rd addr => ⟨.LOAD, [.reg rd, .value addr.toNat]⟩
  | .storeDirect rd addr => ⟨.STORE, [.reg rd, .value addr.toNat]⟩
  | .add rd rs rt => ⟨.ADD, [.reg rd, .reg rs, .reg rt]⟩
  | .sub rd rs rt => ⟨.SUB, [.reg rd, .reg rs, .reg rt]⟩
  | .mul rd rs rt => ⟨.MUL, [.reg rd, .reg rs, .reg rt]⟩
  | .div rd rs rt => ⟨.DIV, [.reg rd, .reg rs, .reg rt]⟩
  | .and rd rs rt => ⟨.AND, [.reg rd, .reg rs, .reg rt]⟩
  | .or rd rs rt => ⟨.OR, [.reg rd, .reg rs, .reg rt]⟩
  | .xor rd rs rt => ⟨.XOR, [.reg rd, .reg rs, .reg rt]⟩
  | .not rd rs => ⟨.NOT, [.reg rd, .reg rs]⟩
  | .shl rd rs rt => ⟨.SHL, [.reg rd, .reg rs, .reg rt]⟩
  | .shr rd rs rt => ⟨.SHR, [.reg rd, .reg rs, .reg rt]⟩
  | .cmp rs rt => ⟨.CMP, [.reg rs, .reg rt]⟩
  | .addi rd rs imm4 => ⟨.ADDI, [.reg rd, .reg rs, .value imm4.toInt]⟩
  | .subi rd rs imm4 => ⟨.SUBI, [.reg rd, .reg rs, .value imm4.toInt]⟩
  | .muli rd rs imm4 => ⟨.MULI, [.reg rd, .reg rs, .value imm4.toInt]⟩
  | .divi rd rs imm4 => ⟨.DIVI, [.reg rd, .reg rs, .value imm4.toInt]⟩
  | .andi rd rs imm4 => ⟨.ANDI, [.reg rd, .reg rs, .value imm4.toInt]⟩
  | .ori rd rs imm4 => ⟨.ORI, [.reg rd, .reg rs, .value imm4.toInt]⟩
  | .xori rd rs imm4 => ⟨.XORI, [.reg rd, .reg rs, .value imm4.toInt]⟩
  | .shli rd rs imm4 => ⟨.SHLI, [.reg rd, .reg rs, .value imm4.toInt]⟩
  | .shri rd rs imm4 => ⟨.SHRI, [.reg rd, .reg rs, .value imm4.toInt]⟩
  | .cmpi rs imm4 => ⟨.CMPI, [.reg rs, .value imm4.toInt]⟩
  | .jmp target => ⟨.JMP, [.value target.toNat]⟩
  | .jz target => ⟨.JZ, [.value target.toNat]⟩
  | .jnz target => ⟨.JNZ, [.value target.toNat]⟩
  | .jc target => ⟨.JC, [.value target.toNat]⟩
  | .jnc target => ⟨.JNC, [.value target.toNat]⟩
  | .jn target => ⟨.JN, [.value target.toNat]⟩
  | .call target => ⟨.CALL, [.value target.toNat]⟩
  | .ret => ⟨.RET, []⟩
  | .push rd => ⟨.PUSH, [.reg rd]⟩
  | .pop rd => ⟨.POP, [.reg rd]⟩
  | .halt => ⟨.HALT, []⟩

end Sys2Proof.Machine
end

