-- ==== Sys2Proof/Machine/AsmText.lean ====
section
/-! DEFINITION. Assembly text (30_encoding.md R96 to R101): what a line and a program written in characters say. It is
the syntax of section 4, not the two-pass algorithm that the source's assembler reads it with, which is outside the
scope (00_scope.md R5(a)): a program's image is given here in terms of the addresses of its lines.
No step of the machine reads anything of this file. Points of spelling the spec leaves open are log 22. -/

namespace Sys2Proof.Machine

/-- Characters of one line, or of the whole text. -/
abbrev Chars := List Char

/-! ## Characters -/

/-- The characters that separate a mnemonic from its operands (R96); DESIGN CHOICE (log 22): blank, tab and carriage
return. -/
def isBlank (c : Char) : Bool := c == ' ' || c == '\t' || c == '\r'

/-- A line without the blanks around it. -/
def trim (s : Chars) : Chars := ((s.dropWhile isBlank).reverse.dropWhile isBlank).reverse

/-- The parts of a text between the occurrences of one character. -/
def splitOn (sep : Char) : Chars → List Chars
  | [] => [[]]
  | c :: s =>
    if c = sep then [] :: splitOn sep s
    else
      match splitOn sep s with
      | [] => [[c]]
      | part :: parts => (c :: part) :: parts

/-- A line without its comment: ";" begins one, which runs to the end of the line (R96). -/
def withoutComment (s : Chars) : Chars := s.takeWhile (fun c => c != ';')

/-- DESIGN CHOICE (log 22): a symbol begins with a letter or `_`. -/
def isSymbolStart (c : Char) : Bool := c.isAlpha || c == '_'

/-- DESIGN CHOICE (log 22): and goes on with letters, digits and `_`. -/
def isSymbolChar (c : Char) : Bool := isSymbolStart c || c.isDigit

/-- The spellings of the digits, the entry at position `v` holding those of the digit of value `v`: enough for the
largest of the three bases of R97. DESIGN CHOICE (log 22): a hexadecimal letter may be of either case. -/
def digitSpellings : List Chars :=
  ["0", "1", "2", "3", "4", "5", "6", "7", "8", "9"].map String.toList ++
  ["Aa", "Bb", "Cc", "Dd", "Ee", "Ff"].map String.toList

/-- The value of a digit: the position of its spelling. -/
def digitValue (c : Char) : Option Nat := digitSpellings.findIdx? (fun spellings => spellings.contains c)

/-- More digits of a number whose digits so far have the value `v`. -/
def digitsFrom (base : Nat) : Nat → Chars → Option Nat
  | v, [] => some v
  | v, c :: s =>
    match digitValue c with
    | some d => if d < base then digitsFrom base (v * base + d) s else none
    | none => none

/-- A number of at least one digit. -/
def digits (base : Nat) (s : Chars) : Option Nat := if s = [] then none else digitsFrom base 0 s

/-! ## Operands (R97) -/

/-- An operand as written: a register, a register-indirect, a literal or a symbol. -/
inductive RawOperand where
  | reg (r : Reg)
  | indirect (r : Reg)
  | literal (v : Int)
  | symbol (name : Chars)
deriving DecidableEq, Repr

/-- `Rn`, n one digit from 0 to 7 (R97). DESIGN CHOICE (log 22): a register's name is upper case only, of which D20 says
nothing for lower case; `r1`, and `R` before anything else (`R8`, `R01`), is no register and reads as a symbol. -/
def registerName : Chars → Option Reg
  | ['R', c] =>
    match digitValue c with
    | some n => if h : n < 8 then some ⟨n, h⟩ else none
    | none => none
  | _ => none

/-- A decimal literal, with `-` before it where it is negative (decision D20), a hexadecimal literal with `0x`, or a
binary literal with `0b` (R97). DESIGN CHOICE (log 22): `0X` and `0B` are no prefixes, there is no `+` and no negative
hexadecimal or binary literal, leading zeros are allowed, and `-0` is 0. -/
def literalValue : Chars → Option Int
  | '0' :: 'x' :: s => (digits 16 s).map Int.ofNat
  | '0' :: 'b' :: s => (digits 2 s).map Int.ofNat
  | '-' :: s => (digits 10 s).map (fun v => - Int.ofNat v)
  | s => (digits 10 s).map Int.ofNat

/-- A symbol name. DESIGN CHOICE (log 22): a register's name is none, a mnemonic's is one, and case counts. -/
def symbolName (s : Chars) : Option Chars :=
  match s with
  | c :: cs => if isSymbolStart c && cs.all isSymbolChar && (registerName s).isNone then some s else none
  | [] => none

/-- `[Rn]` (R97). DESIGN CHOICE (log 22): blanks may stand inside the brackets, around the register's name. -/
def indirectName : Chars → Option Reg
  | '[' :: s =>
    match s.reverse with
    | ']' :: inner => registerName (trim inner.reverse)
    | _ => none
  | _ => none

/-- An operand of a line (R97). -/
def readOperand (s : Chars) : Option RawOperand :=
  match registerName s, indirectName s, literalValue s with
  | some r, _, _ => some (.reg r)
  | none, some r, _ => some (.indirect r)
  | none, none, some v => some (.literal v)
  | none, none, none => (symbolName s).map .symbol

/-! ## Lines (R96) -/

/-- The spelling of each mnemonic, in upper case (R100, decision D20). DESIGN CHOICE (log 22): in upper case only. -/
def mnemonicTable : List (Chars × Mnemonic) :=
  [("NOP".toList, .NOP), ("MOV".toList, .MOV), ("MOVI".toList, .MOVI), ("LOAD".toList, .LOAD),
   ("STORE".toList, .STORE)] ++
  [("ADD".toList, .ADD), ("SUB".toList, .SUB), ("MUL".toList, .MUL), ("DIV".toList, .DIV), ("AND".toList, .AND),
   ("OR".toList, .OR), ("XOR".toList, .XOR), ("NOT".toList, .NOT), ("SHL".toList, .SHL), ("SHR".toList, .SHR),
   ("CMP".toList, .CMP)] ++
  [("ADDI".toList, .ADDI), ("SUBI".toList, .SUBI), ("MULI".toList, .MULI), ("DIVI".toList, .DIVI),
   ("ANDI".toList, .ANDI), ("ORI".toList, .ORI), ("XORI".toList, .XORI), ("SHLI".toList, .SHLI),
   ("SHRI".toList, .SHRI), ("CMPI".toList, .CMPI)] ++
  [("JMP".toList, .JMP), ("JZ".toList, .JZ), ("JNZ".toList, .JNZ), ("JC".toList, .JC), ("JNC".toList, .JNC),
   ("JN".toList, .JN), ("CALL".toList, .CALL), ("RET".toList, .RET)] ++
  [("PUSH".toList, .PUSH), ("POP".toList, .POP), ("HALT".toList, .HALT)]

/-- The mnemonic spelled so; none is an assembly error (R96). -/
def mnemonicOf (s : Chars) : Option Mnemonic := (mnemonicTable.find? (fun p => p.1 == s)).map Prod.snd

/-- The instruction part of a line: its mnemonic and its operands. -/
structure AsmStatement where
  mnemonic : Mnemonic
  operands : List RawOperand
deriving DecidableEq, Repr

/-- A line: a label and an instruction, either of which may be absent (R96). -/
structure SourceLine where
  label : Option Chars
  body : Option AsmStatement
deriving DecidableEq, Repr

/-- Every operand read, or none where one cannot be. -/
def readOperands : List Chars → Option (List RawOperand)
  | [] => some []
  | s :: rest =>
    match readOperand (trim s), readOperands rest with
    | some o, some os => some (o :: os)
    | _, _ => none

/-- The instruction part of a line: a mnemonic, then operands separated by commas (R96). DESIGN CHOICE (log 22): blanks
around an operand are dropped, and an operand that is empty is an error. -/
def readStatement (s : Chars) : Option AsmStatement :=
  let operandText := trim (s.dropWhile (fun c => !isBlank c))
  match mnemonicOf (s.takeWhile (fun c => !isBlank c)),
      (if operandText = [] then some [] else readOperands (splitOn ',' operandText)) with
  | some m, some os => some ⟨m, os⟩
  | _, _ => none

/-- The part of a line after its label, which DESIGN CHOICE (log 22) may be empty. -/
def readBody (s : Chars) : Option (Option AsmStatement) :=
  if trim s = [] then some none else (readStatement (trim s)).map some

/-- A line (R96), or none where it is an assembly error. DESIGN CHOICE (log 22): blanks around a label are dropped, and a
line has at most one `:`. -/
def readLine (s : Chars) : Option SourceLine :=
  match splitOn ':' (withoutComment s) with
  | [text] => (readBody text).map (fun b => ⟨none, b⟩)
  | [name, text] =>
    match symbolName (trim name), readBody text with
    | some l, some b => some ⟨some l, b⟩
    | _, _ => none
  | _ => none

/-! ## Programs (R97, R98, R101) -/

/-- The bytes a line's instruction takes, chosen by the mnemonic and, for LOAD and STORE, by whether an operand is
register-indirect (R98). -/
def AsmStatement.length (l : AsmStatement) : Nat :=
  match l.mnemonic with
  | .LOAD | .STORE => if l.operands.any (fun o => match o with | .indirect _ => true | _ => false) then 2 else 4
  | .JMP | .JZ | .JNZ | .JC | .JNC | .JN | .CALL => 4
  | .NOP | .MOV | .MOVI | .ADD | .SUB | .MUL | .DIV | .AND | .OR | .XOR | .NOT | .SHL | .SHR | .CMP | .ADDI | .SUBI
  | .MULI | .DIVI | .ANDI | .ORI | .XORI | .SHLI | .SHRI | .CMPI | .RET | .PUSH | .POP | .HALT => 2

/-- The bytes a line takes. -/
def SourceLine.length (l : SourceLine) : Nat :=
  match l.body with
  | some b => b.length
  | none => 0

/-- The value of each label: "the address of the next instruction after it, counting from the program start address 0"
(R97). The first argument is the address of the first line. DESIGN CHOICE (log 23): a label with no instruction after it
has the address just past the last instruction, and a value does not wrap, so that one of 65536 or more names no address
(`asmWord` then makes its use as an extended word an assembly error). -/
def labelValues : Nat → List SourceLine → List (Chars × Nat)
  | _, [] => []
  | a, l :: ls =>
    match l.label with
    | some name => (name, a) :: labelValues (a + l.length) ls
    | none => labelValues (a + l.length) ls

/-- The value of a symbol, which a label before or after its use gives it (R97); none, which DESIGN CHOICE (log 22) is an
assembly error, where no label does. -/
def symbolValue : List (Chars × Nat) → Chars → Option Nat
  | [], _ => none
  | (name, v) :: table, s => if s = name then some v else symbolValue table s

/-- An operand with its symbol's value; none for an undefined symbol. -/
def RawOperand.resolve (table : List (Chars × Nat)) : RawOperand → Option AsmOperand
  | .reg r => some (.reg r)
  | .indirect r => some (.indirect r)
  | .literal v => some (.value v)
  | .symbol s => (symbolValue table s).map (fun v => .value (Int.ofNat v))

/-- Operands with their symbols' values. -/
def resolveAll (table : List (Chars × Nat)) : List RawOperand → Option (List AsmOperand)
  | [] => some []
  | o :: os =>
    match o.resolve table, resolveAll table os with
    | some a, some as => some (a :: as)
    | _, _ => none

/-- The instruction that a line says (R98 to R100), or none where it is an assembly error. -/
def AsmStatement.assemble (table : List (Chars × Nat)) (l : AsmStatement) : Option Instr :=
  match resolveAll table l.operands with
  | some as => AsmLine.assemble ⟨l.mnemonic, as⟩
  | none => none

/-- The bytes of the lines' instructions, one after another (R101). -/
def linesImage (m : OpcodeMap) (table : List (Chars × Nat)) : List SourceLine → Option (List Byte)
  | [] => some []
  | l :: ls =>
    match l.body with
    | none => linesImage m table ls
    | some b =>
      match b.assemble table, linesImage m table ls with
      | some i, some rest => (encode m i).map (fun bytes => bytes ++ rest)
      | _, _ => none

/-- Every line of a text read, or none where one is an assembly error. -/
def readLines : List Chars → Option (List SourceLine)
  | [] => some []
  | s :: rest =>
    match readLine s, readLines rest with
    | some l, some ls => some (l :: ls)
    | _, _ => none

/-- The image of a program written as text, or none where it has an assembly error: an unknown mnemonic, a label defined
twice, an operand out of range or of the wrong kind, an undefined symbol (R96, R97, R99, R101). DESIGN CHOICE (log 23): an
image of more than 65,536 bytes is no assembly error; it is `hostLoad` that then fails. -/
def assembleText (m : OpcodeMap) (text : Chars) : Option (List Byte) :=
  match readLines (splitOn '\n' text) with
  | some ls =>
    let table := labelValues 0 ls
    if (table.map Prod.fst).Nodup then linesImage m table ls else none
  | none => none

end Sys2Proof.Machine
end

