-- ==== Sys2Proof/Machine/HostPort.lean ====
section
/-! DEFINITION. The host control port (10_state.md R20(2), 70_reset_and_hazards.md R280 to R286, R291): what the host
can do to the core between steps. `step` is Step's; `stop` is to call nothing. -/

namespace Sys2Proof.Machine

/-- `reset()` in any state (R280): the core's state goes to its reset values; memory, `out` and the parameters stay
(R282). -/
def State.hostReset (s : State) : State :=
  { s with
    regs := Vector.replicate 8 0x0000
    flags := { z := false, c := false, n := false, o := false }
    pc := 0x0000
    sp := s.cfg.stackTop
    halted := false
    illegal := false
    icount := 0 }

/-- Bytes stored one after another from an address on, straight into the array. -/
def Memory.writeAll : Memory → Nat → List Byte → Memory
  | m, _, [] => m
  | m, k, b :: bs => Memory.writeAll (m.write k b) (k + 1) bs

/-- `load(base, bytes)` (R286): copies the image into the array, with no console output; fails, and changes nothing,
where it would pass the end of the space (decision D24). -/
def State.hostLoad (s : State) (base : Word) (bytes : List Byte) : Option State :=
  if 65536 < base.toNat + bytes.length then none
  else some { s with mem := s.mem.writeAll base.toNat bytes }

/-- What must happen before a program runs (R284): load the image at LOAD_BASE (R285), and reset. -/
def State.boot (s : State) (image : List Byte) : Option State :=
  (s.hostLoad s.cfg.loadBase image).map State.hostReset

/-- `run` (R117) under fuel: steps until `halted = 1`. None says that the fuel ran out (or that a step stopped the
machine, which none does), which is no state of the hardware. -/
def State.hostRun : Nat → State → Option State
  | 0, s => if s.halted then some s else none
  | k + 1, s =>
    if s.halted then some s
    else
      match step s with
      | .next s' => State.hostRun k s'
      | .fault _ => none
      | .refused _ => none

/-- The host's packed view of the flag register (R31, decision D7, log 21): bit 0 = Z, bit 1 = C, bit 2 = N, bit 3 = O. -/
def Flags.packed (f : Flags) : BitVec 4 :=
  BitVec.ofBool f.o ++ BitVec.ofBool f.n ++ BitVec.ofBool f.c ++ BitVec.ofBool f.z

/-- The host's report of an illegal opcode (R251, R252, decision D18): the offending 6-bit value and the faulting base
word, read from memory at `u16(pc - 2)`. -/
def State.illegalReport (s : State) : Option (IllegalOpcode × Word) :=
  if s.illegal then
    let w := s.readWord (s.pc - 2)
    some (⟨opField w⟩, w)
  else none

end Sys2Proof.Machine
end

