-- ==== Sys2Proof/Safety.lean ====
section
/-! DEFINITION. The terms claims are made in: how a run ends (60_exceptions.md R263), the invariant every step keeps,
what an instruction leaves unchanged, and what an ALU result or a stored word is, said in plain numbers and apart from
the model's own operations. -/

namespace Sys2Proof.Machine

/-! ## How a run ends -/

/-- A normal end: halted, and not by an illegal opcode (R241, R263). -/
def State.normalEnd (s : State) : Prop := s.halted = true ∧ s.illegal = false

/-- A fault: halted by an illegal opcode (R263). A claim about a good end takes its negation as a premise. -/
def State.faultEnd (s : State) : Prop := s.halted = true ∧ s.illegal = true

/-- The invariant of the machine: parameters the spec allows, memory in canonical form, the instruction counter within
its width (R36), and the illegal mark only on a halted core (R37, R251). -/
abbrev State.Inv (s : State) : Prop :=
  s.cfg.wf = true ∧ s.mem.wf = true ∧ s.icount < 2 ^ s.cfg.icountBits ∧ (s.illegal = true → s.halted = true)

/-! ## The bytes at the program counter -/

/-- The four bytes from `pc` on: as many as the longest instruction has (R80). -/
def State.bytesAtPc (s : State) : List Byte :=
  [s.readByte s.pc, s.readByte (s.pc + 1), s.readByte (s.pc + 2), s.readByte (s.pc + 3)]

/-! ## Frames -/

/-- The parameters and the engine's control state are as before. -/
def KeepsEngine (s t : State) : Prop :=
  t.cfg = s.cfg ∧ t.halted = s.halted ∧ t.illegal = s.illegal ∧ t.icount = s.icount

/-- Every byte of memory reads as before, and nothing was emitted. -/
def KeepsMemory (s t : State) : Prop :=
  (∀ x : Word, t.readByte x = s.readByte x) ∧ t.out = s.out

/-- Every general register is as before. -/
def KeepsRegs (s t : State) : Prop := ∀ r : Reg, t.reg r = s.reg r

/-- Every general register but one is as before. -/
def KeepsRegsBut (rd : Reg) (s t : State) : Prop := ∀ r : Reg, r ≠ rd → t.reg r = s.reg r

/-- The little-endian word of the bytes at `a` and `a + 1`, as a number (R54). -/
def State.wordValue (s : State) (a : Word) : Nat := (s.readByte a).toNat + 256 * (s.readByte (a + 1)).toNat

/-- Memory and output after the word `v` was stored at `a` (R53, R55): the low byte at `a` and the high byte at `a + 1`,
but for a byte that falls on the console's address, which is emitted and not stored; every other byte as before. -/
def WordStored (s t : State) (a v : Word) : Prop :=
  (∀ x : Word, x ≠ a → x ≠ a + 1 → t.readByte x = s.readByte x) ∧
  (a ≠ s.cfg.consoleAddr → (t.readByte a).toNat = v.toNat % 256) ∧
  (a + 1 ≠ s.cfg.consoleAddr → (t.readByte (a + 1)).toNat = v.toNat / 256) ∧
  t.readByte s.cfg.consoleAddr = s.readByte s.cfg.consoleAddr ∧
  t.out = s.out ++
    (if a = s.cfg.consoleAddr then [BitVec.ofNat 8 (v.toNat % 256)]
     else if a + 1 = s.cfg.consoleAddr then [BitVec.ofNat 8 (v.toNat / 256)]
     else [])

/-! ## ALU results -/

/-- All an ALU instruction with a destination leaves alone: every other register, `pc`, `sp`, engine, memory. -/
def AluFrame (rd : Reg) (s t : State) : Prop :=
  KeepsRegsBut rd s t ∧ t.pc = s.pc ∧ t.sp = s.sp ∧ KeepsEngine s t ∧ KeepsMemory s t

/-- Flags whose Zero and Negative come from the result `r` (R131) and whose Carry and Overflow hold exactly when `c` and
`o` do. -/
def FlagsAre (f : Flags) (r : Nat) (c o : Prop) : Prop :=
  (f.z = true ↔ r = 0) ∧ (f.n = true ↔ 32768 ≤ r) ∧ (f.c = true ↔ c) ∧ (f.o = true ↔ o)

/-- The destination holds `r`, the flags are those of `r`, `c` and `o`, and nothing else changed. -/
def AluWrote (rd : Reg) (s t : State) (r : Nat) (c o : Prop) : Prop :=
  (t.reg rd).toNat = r ∧ FlagsAre t.flags r c o ∧ AluFrame rd s t

/-- The sign bit of a word read as a number. -/
def SignBit (v : Nat) : Prop := 32768 ≤ v

/-- R132 in numbers. -/
def AddWrote (rd : Reg) (s t : State) (a b : Nat) : Prop :=
  let r := (a + b) % 65536
  AluWrote rd s t r (65536 ≤ a + b) ((SignBit a ↔ SignBit b) ∧ ¬ (SignBit r ↔ SignBit a))

/-- R133 in numbers. -/
def SubFlagsAre (f : Flags) (a b : Nat) : Prop :=
  let r := (65536 + a - b) % 65536
  FlagsAre f r (a < b) (¬ (SignBit a ↔ SignBit b) ∧ ¬ (SignBit r ↔ SignBit a))

/-- R134 in numbers. -/
def MulWrote (rd : Reg) (s t : State) (a b : Nat) : Prop :=
  AluWrote rd s t (a * b % 65536) (65535 < a * b) False

/-- R135 in numbers: the sentinel with DIV0_N for a divisor of 0, the truncated quotient otherwise. -/
def DivWrote (rd : Reg) (s t : State) (a b : Nat) : Prop :=
  if b = 0 then
    (t.reg rd).toNat = 65535 ∧ t.flags = ⟨false, false, s.cfg.div0N, true⟩ ∧ AluFrame rd s t
  else AluWrote rd s t (a / b) False False

/-- R140 in numbers: `n` is the whole amount. -/
def ShlWrote (rd : Reg) (s t : State) (a n : Nat) : Prop :=
  AluWrote rd s t (a * 2 ^ n % 65536)
    ((1 ≤ n ∧ n ≤ 15 ∧ a.testBit (16 - n) = true) ∨
      (n = 16 ∧ a.testBit (if s.cfg.shift16C = .lastOut then 0 else 15) = true)) False

/-- R141 in numbers. -/
def ShrWrote (rd : Reg) (s t : State) (a n : Nat) : Prop :=
  AluWrote rd s t (a / 2 ^ n)
    ((1 ≤ n ∧ n ≤ 15 ∧ a.testBit (n - 1) = true) ∨
      (n = 16 ∧ a.testBit (if s.cfg.shift16C = .lastOut then 15 else 0) = true)) False

/-- R136 to R139: the destination's bits are those given, the flags come from the result with Carry and Overflow 0. -/
def BitsWrote (rd : Reg) (s t : State) (bit : Nat → Bool) : Prop :=
  (∀ k, k < 16 → (t.reg rd).getLsbD k = bit k) ∧ FlagsAre t.flags (t.reg rd).toNat False False ∧ AluFrame rd s t

/-- The immediate operand of the immediate-form ALU instructions: the 4-bit field read as a signed number, as a 16-bit
word (R85). -/
def signed4 (v : BitVec 4) : Word := BitVec.ofInt 16 v.toInt

/-! ## Classes of instructions -/

/-- The opcodes that use the ALU (R32). -/
def aluOps : List Op :=
  [.add, .sub, .mul, .div, .and, .or, .xor, .not, .shl, .shr, .cmp, .addi, .subi, .muli, .divi, .andi, .ori, .xori,
   .shli, .shri, .cmpi]

/-- The conditional branches (R33). -/
def conditionalOps : List Op := [.jz, .jnz, .jc, .jnc, .jn]

/-- The opcodes that write `pc` other than by the +2 advances (R28). -/
def controlTransferOps : List Op := [.jmp, .jz, .jnz, .jc, .jnc, .jn, .call, .ret]

/-- The opcodes that write `sp` (R29). -/
def stackOps : List Op := [.push, .pop, .call, .ret]

/-- The opcodes of 4 bytes (R80). -/
def fourByteOps : List Op := [.loadDirect, .storeDirect, .jmp, .jz, .jnz, .jc, .jnc, .jn, .call]

/-- The bits of the base word that take part in an instruction (R81, R82, R84, R88). -/
def usedBits : Op → Word
  | .mov | .loadIndirect | .storeIndirect | .not => 0xFFF0
  | .movi | .addi | .subi | .muli | .divi | .andi | .ori | .xori | .shli | .shri => 0xFFFF
  | .loadDirect | .storeDirect | .push | .pop => 0xFF80
  | .add | .sub | .mul | .div | .and | .or | .xor | .shl | .shr => 0xFFF7
  | .cmp => 0xFC77
  | .cmpi => 0xFC7F
  | .jmp | .jz | .jnz | .jc | .jnc | .jn | .call | .ret | .halt => 0xFC00

/-- The general register an instruction writes, if it writes one (R24). -/
def destination : Instr → Option Reg
  | .mov rd _ | .movi rd _ | .loadIndirect rd _ | .loadDirect rd _ | .add rd _ _ | .sub rd _ _ | .mul rd _ _
  | .div rd _ _ | .and rd _ _ | .or rd _ _ | .xor rd _ _ | .not rd _ | .shl rd _ _ | .shr rd _ _ | .addi rd _ _
  | .subi rd _ _ | .muli rd _ _ | .divi rd _ _ | .andi rd _ _ | .ori rd _ _ | .xori rd _ _ | .shli rd _ _
  | .shri rd _ _ | .pop rd => some rd
  | .storeIndirect _ _ | .storeDirect _ _ | .cmp _ _ | .cmpi _ _ | .jmp _ | .jz _ | .jnz _ | .jc _ | .jnc _ | .jn _
  | .call _ | .ret | .push _ | .halt => none

/-- The address of the word an instruction stores, if it stores one (R59): from the state its execute phase begins in. -/
def storeAddress (s : State) : Instr → Option Word
  | .storeIndirect _ rs => some (s.indirectAddress rs)
  | .storeDirect _ addr => some (directAddress addr)
  | .call _ | .push _ => some (s.sp - 2)
  | .mov _ _ | .movi _ _ | .loadIndirect _ _ | .loadDirect _ _ | .add _ _ _ | .sub _ _ _ | .mul _ _ _ | .div _ _ _
  | .and _ _ _ | .or _ _ _ | .xor _ _ _ | .not _ _ | .shl _ _ _ | .shr _ _ _ | .cmp _ _ | .addi _ _ _ | .subi _ _ _
  | .muli _ _ _ | .divi _ _ _ | .andi _ _ _ | .ori _ _ _ | .xori _ _ _ | .shli _ _ _ | .shri _ _ _ | .cmpi _ _
  | .jmp _ | .jz _ | .jnz _ | .jc _ | .jnc _ | .jn _ | .ret | .pop _ | .halt => none

/-- The word an instruction stores, if it stores one: the data register of a STORE (R163, R165) and of PUSH (R230), and
the return address of CALL (R217). -/
def storedWord (s : State) : Instr → Option Word
  | .storeIndirect rd _ | .storeDirect rd _ | .push rd => some (s.reg rd)
  | .call _ => some (s.pc + 2)
  | .mov _ _ | .movi _ _ | .loadIndirect _ _ | .loadDirect _ _ | .add _ _ _ | .sub _ _ _ | .mul _ _ _ | .div _ _ _
  | .and _ _ _ | .or _ _ _ | .xor _ _ _ | .not _ _ | .shl _ _ _ | .shr _ _ _ | .cmp _ _ | .addi _ _ _ | .subi _ _ _
  | .muli _ _ _ | .divi _ _ _ | .andi _ _ _ | .ori _ _ _ | .xori _ _ _ | .shli _ _ _ | .shri _ _ _ | .cmpi _ _
  | .jmp _ | .jz _ | .jnz _ | .jc _ | .jnc _ | .jn _ | .ret | .pop _ | .halt => none

/-! ## What a program can observe -/

/-- Two states agree in all that a program's behaviour may depend on: everything but `O`, `illegal`, `icount` and `out`,
which only the host observes (R33, R36, R37, R39, R52). -/
def SameToProgram (s s' : State) : Prop :=
  s.cfg = s'.cfg ∧ s.regs = s'.regs ∧ s.pc = s'.pc ∧ s.sp = s'.sp ∧ s.flags.z = s'.flags.z ∧ s.flags.c = s'.flags.c ∧
    s.flags.n = s'.flags.n ∧ s.halted = s'.halted ∧ s.mem = s'.mem

end Sys2Proof.Machine
end

