-- ==== Sys2Proof/Certificates/Slice0/Obligations.lean ====
section
/-! DEFINITION. The statements for the provers, from the numbered rules of spec/. A statement about `exec` is about the
execute phase: its state `s` is the one after the base word's fetch, so `s.pc` is the base word's address plus 2
(40_fetch_decode.md R111); StepRunsDecodedInstruction carries it to `step`. The parameters of 00_scope.md R7 stand in
`s.cfg`, so every statement holds for every value of them, and what memory lists stands for MEM_INIT. -/

open Sys2Proof Sys2Proof.Machine

/-! ## Encoding -/

/-- Decoding what an instruction encodes to gives the instruction back, at every value of every operand, under every
opcode map the spec allows, with any bytes after it (R83, R84, R95, R101). The bit positions are the spec's decision D1
(log 10), the operand roles D6 (log 11). -/
def Obligations.DecodeOfEncodeIsTheInstruction : Prop :=
  ∀ (m : OpcodeMap) (i : Instr), m.wf = true →
    ∃ bytes : List Byte, encode m i = some bytes ∧ bytes.length = (if i.op ∈ fourByteOps then 4 else 2) ∧
      ∀ rest : List Byte, decode m (bytes ++ rest) = .ok (i, rest)

/-- R95: each field of a packed word reads back as the value packed, masked to the field's width. The positions are the
spec's decision D1 (log 10). -/
def Obligations.PackedFieldsReadBackMasked : Prop :=
  (∀ op rd rs rt : Nat,
    let w := packRegisterForm op rd rs rt
    (opField w).toNat = op % 64 ∧ (rdField w).val = rd % 8 ∧ (rsField w).val = rs % 8 ∧
      (imm4Field w).toNat = rt % 16 ∧ (rtField w).val = rt % 8 ∧
      w.toNat = 1024 * (op % 64) + 128 * (rd % 8) + 16 * (rs % 8) + rt % 16) ∧
  (∀ op rd imm7 : Nat,
    let w := packShortImmediate op rd imm7
    (opField w).toNat = op % 64 ∧ (rdField w).val = rd % 8 ∧ (imm7Field w).toNat = imm7 % 128 ∧
      w.toNat = 1024 * (op % 64) + 128 * (rd % 8) + imm7 % 128)

/-- R92 under the default opcode map, the spec's decision D2 (log 3): exactly the opcode values 0x25 to 0x3E decode to no
instruction, whatever the other bits. -/
def Obligations.IllegalOpcodesAreExactly25To3E : Prop :=
  ∀ w ext : Word,
    (∃ e, decodeWords defaultOpcodeMap w ext = .error e) ↔ (0x25 ≤ w.toNat / 1024 ∧ w.toNat / 1024 ≤ 0x3E)

/-- R88: bits of the base word that an instruction does not use, and a following word where the form has none, do not
change what is decoded. The spec's decision D5 (log 12). -/
def Obligations.UnusedBitsAreIgnored : Prop :=
  ∀ (m : OpcodeMap) (o : Op) (w w' ext ext' : Word), m.lookup (opField w) = some o →
    w &&& usedBits o = w' &&& usedBits o → (o ∈ fourByteOps → ext = ext') →
    decodeWords m w ext = decodeWords m w' ext'

/-- R80, R89: an instruction has 4 bytes if its opcode is one of the nine of extended form and 2 otherwise; the length is
a function of the opcode field alone, under every opcode map, and it is how many bytes decoding takes; an illegal opcode
has length 2. -/
def Obligations.LengthFollowsFromOpcodeAlone : Prop :=
  ∀ (m : OpcodeMap),
    (∀ c o, m.lookup c = some o → m.lengthOf c = if o ∈ fourByteOps then 4 else 2) ∧
    (∀ c, m.lookup c = none → m.lengthOf c = 2) ∧
    (∀ (b0 b1 : Byte) (bytes rest : List Byte) (i : Instr), decode m (b0 :: b1 :: bytes) = .ok (i, rest) →
      (b0 :: b1 :: bytes).length = rest.length + m.lengthOf (opField (wordOfBytes b0 b1)) ∧
      m.lookup (opField (wordOfBytes b0 b1)) = some i.op)

/-- A sanity check of single words from the spec's examples and decode vectors (R160 to R240, 95_test_vectors.md 2.1,
under the default map, decisions D1, D2, D5, D6; logs 3, 10, 11, 12). -/
def Obligations.SpecExampleWordsDecode : Prop :=
  decode defaultOpcodeMap [0x90, 0x01] = .ok (.mov 3 1, []) ∧
  decode defaultOpcodeMap [0xFF, 0x06] = .ok (.movi 5 0x7F, []) ∧
  decode defaultOpcodeMap [0x80, 0x14, 0x00, 0x01] = .ok (.storeDirect 1 0x0100, []) ∧
  decode defaultOpcodeMap [0x0F, 0x18] = .ok (.add 0 0 7, []) ∧
  decode defaultOpcodeMap [0x9F, 0x44] = .ok (.addi 1 1 0xF, []) ∧
  decode defaultOpcodeMap [0x00, 0x84, 0x20, 0x00] = .ok (.call 0x0020, []) ∧
  decode defaultOpcodeMap [0x80, 0x90] = .ok (.pop 1, []) ∧
  decode defaultOpcodeMap [0xFF, 0xFF] = .ok (.halt, []) ∧
  decode defaultOpcodeMap [0x00, 0x94] = .error (.illegalOpcode 0x25)

/-- R91, R98, R99, R100: assembling what the disassembler prints gives the instruction back, but that the NOP spellings
(opcode 0 with `rd = rs`) all give the canonical `MOV R0, R0`. The mnemonics and operand orders are the spec's decisions
D3, D6, D20 (log 17). -/
def Obligations.AssembleOfDisassembleIsTheInstruction : Prop :=
  ∀ i : Instr, (disassemble i).assemble =
    some (match i with
      | .mov rd rs => if rd = rs then .mov 0 0 else .mov rd rs
      | j => j)

/-- R98, R80: the bytes that a line of assembly is counted as, by its mnemonic and the form of its operands alone, are as
many as its instruction encodes to, whatever values the labels have. The mnemonics are the spec's decision D3 (log 17). -/
def Obligations.LineSizesAgreeWithEncoding : Prop :=
  ∀ (m : OpcodeMap) (table : List (Chars × Nat)) (l : AsmStatement) (i : Instr), m.wf = true →
    l.assemble table = some i → ∃ bytes, encode m i = some bytes ∧ bytes.length = l.length

/-! ## The step -/

/-- R111, R113, R114, R116: when the bytes at `pc` of a running core decode to an instruction, the step is that
instruction's execute phase in the state whose `pc` is past the base word and whose instruction counter has counted. -/
def Obligations.StepRunsDecodedInstruction : Prop :=
  ∀ (s : State) (i : Instr) (rest : List Byte), s.halted = false →
    decode s.cfg.opcodeMap s.bytesAtPc = .ok (i, rest) →
    step s = exec i { s with pc := s.pc + 2, icount := (s.icount + 1) % 2 ^ s.cfg.icountBits }

/-- R110: a halted core's steps change nothing, however many are taken. -/
def Obligations.HaltedStepsChangeNothing : Prop :=
  ∀ (s : State) (k : Nat), s.halted = true → core.run k s = .next s

/-- R251, R252: a step at an opcode outside the map halts with `illegal`, `pc` past the base word and the step counted,
changes nothing else, and leaves the report of the offending value and word. That it counts and how it is reported are
the spec's decision D18 (log 13). -/
def Obligations.IllegalOpcodeHaltsWithReport : Prop :=
  ∀ (s : State) (op : BitVec 6), s.halted = false →
    decode s.cfg.opcodeMap s.bytesAtPc = .error (.illegalOpcode op) →
    ∃ t, step s = .next t ∧ t.halted = true ∧ t.illegal = true ∧ t.pc = s.pc + 2 ∧
      t.icount = (s.icount + 1) % 2 ^ s.cfg.icountBits ∧ t.cfg = s.cfg ∧ t.sp = s.sp ∧ t.flags = s.flags ∧
      KeepsRegs s t ∧ KeepsMemory s t ∧
      ∃ w, t.illegalReport = some (⟨op⟩, w) ∧ w.toNat = s.wordValue s.pc ∧ w.toNat / 1024 = op.toNat

/-- R250, R254: every step of every state answers a next state: no address, operand, stack or arithmetic fault stops it;
and the exceptional mark is raised exactly by a running core at an opcode outside the map. The mark is the spec's
decision D18 (log 13). -/
def Obligations.StepAlwaysAnswersAndOnlyIllegalOpcodeMarks : Prop :=
  ∀ s : State, ∃ t, step s = .next t ∧
    (s.illegal = false → (t.illegal = true ↔
      s.halted = false ∧ ∃ op, decode s.cfg.opcodeMap s.bytesAtPc = .error (.illegalOpcode op)))

/-- Every step keeps the invariant: allowed parameters, memory in canonical form, the instruction counter within its width,
the illegal mark only on a halted core (R36, R37, R50); and it leaves the parameters as they were (R118). The canonical
form is the model's (log 2), the counter's width and wrap are the spec's decision D19 (log 8), the illegal mark is its
decision D18 (log 13). -/
def Obligations.StepKeepsInvariant : Prop :=
  ∀ s t : State, s.Inv → step s = .next t → t.Inv ∧ t.cfg = s.cfg

/-- The state after reset meets the invariant. -/
def Obligations.ResetMeetsInvariant : Prop := State.reset.Inv

/-- R53, R56: no step changes the byte stored at the console's address, and a step emits at most one byte, at the end of
the output. -/
def Obligations.ConsoleByteIsNeverStoredTo : Prop :=
  ∀ s t : State, step s = .next t →
    t.readByte s.cfg.consoleAddr = s.readByte s.cfg.consoleAddr ∧ (t.out = s.out ∨ ∃ b, t.out = s.out ++ [b])

/-- R33, R36, R37, R52: what a program does cannot depend on `O`, `illegal`, `icount` or what was emitted: two states that
agree in all else step to states that agree in all else, and emit the same. -/
def Obligations.HostOnlyStateIsUnobservable : Prop :=
  ∀ s s' t t' : State, SameToProgram s s' → step s = .next t → step s' = .next t' →
    SameToProgram t t' ∧ ∃ emitted : List Byte, t.out = s.out ++ emitted ∧ t'.out = s'.out ++ emitted

/-- R36, R114, R118: a step of a running core counts exactly one, modulo the counter's width, whatever it executes, an
illegal opcode included (decision D18, log 13), and writes no parameter. -/
def Obligations.RunningStepCountsOne : Prop :=
  ∀ s t : State, s.halted = false → step s = .next t →
    t.icount = (s.icount + 1) % 2 ^ s.cfg.icountBits ∧ t.cfg = s.cfg

/-- R35: `halted` becomes 1 on HALT and on an illegal opcode, only reset clears it, a halted core's step changes nothing,
and it is 0 after reset. -/
def Obligations.HaltedIsSetByHaltAndIllegalOpcodeOnly : Prop :=
  (∀ s t : State, s.halted = false → step s = .next t →
    (t.halted = true ↔ (∃ rest, decode s.cfg.opcodeMap s.bytesAtPc = .ok (.halt, rest)) ∨
      ∃ op, decode s.cfg.opcodeMap s.bytesAtPc = .error (.illegalOpcode op))) ∧
  (∀ s t : State, s.halted = true → step s = .next t → t = s) ∧
  (∀ s : State, s.hostReset.halted = false) ∧ State.reset.halted = false

/-- R32, R130: an instruction that does not use the ALU leaves all four flags, and one that does replaces all four, its
whole effect being independent of the flags before. That the others leave them is the spec's decision D8 (log 14). -/
def Obligations.FlagsAreReplacedByAluInstructionsOnly : Prop :=
  ∀ (i : Instr) (s : State),
    (i.op ∉ aluOps → ∀ t, exec i s = .next t → t.flags = s.flags) ∧
    (i.op ∈ aluOps → ∀ f : Flags, exec i (s.setFlags f) = exec i s)

/-- R33: JZ is taken on Z = 1, JNZ on Z = 0, JC on C = 1, JNC on C = 0, JN on N = 1, each otherwise going on past its
extended word and changing nothing but `pc`; and no other instruction reads a flag. That the branches, and every other
instruction that does not use the ALU, leave the flags is the spec's decision D8 (log 14). -/
def Obligations.FlagsAreReadByConditionalBranchesOnly : Prop :=
  (∀ (s : State) (target : Word),
    let goes := fun (i : Instr) (taken : Prop) => ∃ t, exec i s = .next t ∧ (taken → t.pc = target) ∧
      (¬ taken → t.pc = s.pc + 2) ∧ t.sp = s.sp ∧ t.flags = s.flags ∧ KeepsRegs s t ∧ KeepsEngine s t ∧
      KeepsMemory s t
    goes (.jz target) (s.flags.z = true) ∧ goes (.jnz target) (s.flags.z = false) ∧
    goes (.jc target) (s.flags.c = true) ∧ goes (.jnc target) (s.flags.c = false) ∧
    goes (.jn target) (s.flags.n = true)) ∧
  (∀ (i : Instr) (s t : State) (f : Flags), i.op ∉ conditionalOps → exec i s = .next t →
    exec i (s.setFlags f) = .next (if i.op ∈ aluOps then t else t.setFlags f))

/-- R24: an instruction writes no general register but its destination, and the instructions without one write none. The
field roles are the spec's decision D6 (log 11). -/
def Obligations.OnlyTheDestinationRegisterIsWritten : Prop :=
  ∀ (i : Instr) (s t : State) (r : Reg), exec i s = .next t → destination i ≠ some r → t.reg r = s.reg r

/-- R26, R28: an instruction that is no control transfer leaves `pc` just past itself, at the base word's address plus the
instruction's length. -/
def Obligations.PcAdvancesByLengthElsewhere : Prop :=
  ∀ (s t : State) (i : Instr) (rest : List Byte), s.halted = false →
    decode s.cfg.opcodeMap s.bytesAtPc = .ok (i, rest) → i.op ∉ controlTransferOps → step s = .next t →
    t.pc = s.pc + (if i.op ∈ fourByteOps then 4 else 2)

/-- R29: only PUSH, POP, CALL and RET write or read `sp`. -/
def Obligations.OnlyStackInstructionsUseSp : Prop :=
  ∀ (i : Instr) (s t : State), i.op ∉ stackOps → exec i s = .next t →
    t.sp = s.sp ∧ ∀ v : Word, exec i { s with sp := v } = .next { t with sp := v }

/-- R59, R63: every byte outside the word an instruction stores reads as before, and an instruction that stores none
changes no byte and emits nothing. -/
def Obligations.MemoryChangesOnlyWhereStored : Prop :=
  ∀ (i : Instr) (s t : State), exec i s = .next t →
    (∀ a x : Word, storeAddress s i = some a → x ≠ a → x ≠ a + 1 → t.readByte x = s.readByte x) ∧
    (storeAddress s i = none → KeepsMemory s t)

/-! ## The host port -/

/-- R280, R281, R282: reset of any state, halted or not, clears registers and flags, sets `sp` to STACK_TOP and clears the
control state, leaves memory, output and parameters, and the next step runs the instruction at address 0. That it clears
`illegal` is the spec's decision D18 (log 13). -/
def Obligations.HostResetRestartsAtZero : Prop :=
  ∀ s : State,
    KeepsMemory s s.hostReset ∧ s.hostReset.cfg = s.cfg ∧ s.hostReset.sp = s.cfg.stackTop ∧
    s.hostReset.flags = ⟨false, false, false, false⟩ ∧ (∀ r : Reg, s.hostReset.reg r = 0) ∧
    s.hostReset.halted = false ∧ s.hostReset.illegal = false ∧ s.hostReset.icount = 0 ∧ s.hostReset.pc = 0 ∧
    ∀ (i : Instr) (rest : List Byte),
      decode s.cfg.opcodeMap [s.readByte 0, s.readByte 1, s.readByte 2, s.readByte 3] = .ok (i, rest) →
      step s.hostReset = exec i { s.hostReset with pc := 2, icount := 1 % 2 ^ s.cfg.icountBits }

/-- R286: a load whose image fits copies byte `i` to `base + i`, the console's address included, changes no other byte,
emits nothing and touches no core state; one that does not fit fails. Memory's canonical form is kept. That the copy
bypasses the console, and that a failed load changes nothing, are the spec's decision D24 (log 9). -/
def Obligations.HostLoadCopiesTheImageOrFails : Prop :=
  ∀ (s : State) (base : Word) (image : List Byte),
    (65536 < base.toNat + image.length → s.hostLoad base image = none) ∧
    (base.toNat + image.length ≤ 65536 → ∃ t, s.hostLoad base image = some t ∧
      (∀ x : Word, t.readByte x =
        if base.toNat ≤ x.toNat then image.getD (x.toNat - base.toNat) (s.readByte x) else s.readByte x) ∧
      { t with mem := s.mem } = s ∧ (s.mem.wf = true → t.mem.wf = true))

/-- R117, R263: a run that ends has ended in a halted state, it is the first one, and more fuel gives the same end. -/
def Obligations.RunEndsAtTheFirstHaltedState : Prop :=
  ∀ (s t : State) (k : Nat), s.hostRun k = some t →
    t.halted = true ∧ (∀ j, k ≤ j → s.hostRun j = some t) ∧
    ∃ n, n ≤ k ∧ core.run n s = .next t ∧ ∀ j, j < n → ∃ u, core.run j s = .next u ∧ u.halted = false

/-! ## Data movement -/

/-- R160: MOV copies its source register and changes nothing else; with `rd = rs` nothing changes at all (NOP). That
the flags stay is the spec's decision D8 (log 14). -/
def Obligations.MovCopiesOrDoesNothing : Prop :=
  ∀ (s : State) (rd rs : Reg), ∃ t, exec (.mov rd rs) s = .next t ∧ t.reg rd = s.reg rs ∧ KeepsRegsBut rd s t ∧
    (rd = rs → t = s) ∧ t.pc = s.pc ∧ t.sp = s.sp ∧ t.flags = s.flags ∧ KeepsEngine s t ∧ KeepsMemory s t

/-- R86 (and R161, R9): MOVI's immediate is its 7-bit field sign-extended: as a signed number the field's own value,
from -64 to 63. That the flags stay is the spec's decision D8 (log 14). -/
def Obligations.MoviLoadsSignExtendedImmediate : Prop :=
  ∀ (s : State) (rd : Reg) (imm7 : BitVec 7), ∃ t, exec (.movi rd imm7) s = .next t ∧
    (t.reg rd).toInt = imm7.toInt ∧ -64 ≤ (t.reg rd).toInt ∧ (t.reg rd).toInt ≤ 63 ∧
    ((0xFFC0 ≤ (t.reg rd).toNat ∧ (t.reg rd).toNat ≤ 0xFFFF) ∨ (t.reg rd).toNat ≤ 0x003F) ∧
    KeepsRegsBut rd s t ∧ t.pc = s.pc ∧ t.sp = s.sp ∧ t.flags = s.flags ∧ KeepsEngine s t ∧ KeepsMemory s t

/-- R162, R164: a LOAD writes the little-endian word at its address, which is read before the register is written, and
changes nothing else; the direct form also passes its extended word. The second byte of a word at 0xFFFF is at 0x0000
by the spec's decision D12, the width by D14 (log 15). That the flags stay is the spec's decision D8 (log 14). -/
def Obligations.LoadsReadTheWord : Prop :=
  ∀ (s : State) (rd rs : Reg) (addr : Word),
    (∃ t, exec (.loadIndirect rd rs) s = .next t ∧ (t.reg rd).toNat = s.wordValue (s.reg rs) ∧ KeepsRegsBut rd s t ∧
      t.pc = s.pc ∧ t.sp = s.sp ∧ t.flags = s.flags ∧ KeepsEngine s t ∧ KeepsMemory s t) ∧
    (∃ t, exec (.loadDirect rd addr) s = .next t ∧ (t.reg rd).toNat = s.wordValue addr ∧ KeepsRegsBut rd s t ∧
      t.pc = s.pc + 2 ∧ t.sp = s.sp ∧ t.flags = s.flags ∧ KeepsEngine s t ∧ KeepsMemory s t)

/-- R163, R165: a STORE writes its data register's word at its address, a byte on the console's address being emitted
instead of stored, and changes nothing else; the direct form also passes its extended word. The data register is in
`rd` by the spec's decision D6 (log 11); the wrap at 0xFFFF is D12, the width D14 (log 15). That the flags stay is the
spec's decision D8 (log 14). -/
def Obligations.StoresWriteTheWord : Prop :=
  ∀ (s : State) (rd rs : Reg) (addr : Word),
    (∃ t, exec (.storeIndirect rd rs) s = .next t ∧ WordStored s t (s.reg rs) (s.reg rd) ∧ KeepsRegs s t ∧
      t.pc = s.pc ∧ t.sp = s.sp ∧ t.flags = s.flags ∧ KeepsEngine s t) ∧
    (∃ t, exec (.storeDirect rd addr) s = .next t ∧ WordStored s t addr (s.reg rd) ∧ KeepsRegs s t ∧
      t.pc = s.pc + 2 ∧ t.sp = s.sp ∧ t.flags = s.flags ∧ KeepsEngine s t)

/-- R66, R288: the word that an instruction stores (a STORE, a PUSH, the return address of a CALL) is what the next step
fetches, with nothing in between, as its base word where it was stored at the `pc` the instruction leaves and as the
extended word where it was stored just after that, unless a byte of it falls on the console's address. -/
def Obligations.StoredCodeIsFetchedNext : Prop :=
  ∀ (i : Instr) (s t : State) (a v : Word), storeAddress s i = some a → storedWord s i = some v →
    exec i s = .next t → a ≠ s.cfg.consoleAddr → a + 1 ≠ s.cfg.consoleAddr →
    (t.pc = a → t.fetchBase = v ∧ t.bytesAtPc.take 2 = bytesOfWord v) ∧
    (t.pc + 2 = a → t.fetchExt = v ∧ t.bytesAtPc.drop 2 = bytesOfWord v)

/-! ## Arithmetic and logic -/

/-- R132: the 16-bit wraparound sum, Carry iff the 17-bit unsigned sum overflows, Overflow iff the operands share a sign
and the result's differs, Zero and Negative from the result; for the register form and the immediate form. -/
def Obligations.AddWritesSumAndFlags : Prop :=
  ∀ (s : State) (rd rs rt : Reg) (imm4 : BitVec 4),
    (∃ t, exec (.add rd rs rt) s = .next t ∧ AddWrote rd s t (s.reg rs).toNat (s.reg rt).toNat) ∧
    (∃ t, exec (.addi rd rs imm4) s = .next t ∧ AddWrote rd s t (s.reg rs).toNat (signed4 imm4).toNat)

/-- R133: the wraparound difference, Carry iff unsigned `a < b`, Overflow iff the operand signs differ and the result's
differs from `a`'s, Zero and Negative from the result. -/
def Obligations.SubWritesDifferenceAndFlags : Prop :=
  ∀ (s : State) (rd rs rt : Reg) (imm4 : BitVec 4),
    (∃ t, exec (.sub rd rs rt) s = .next t ∧
      (t.reg rd).toNat = (65536 + (s.reg rs).toNat - (s.reg rt).toNat) % 65536 ∧
      SubFlagsAre t.flags (s.reg rs).toNat (s.reg rt).toNat ∧ AluFrame rd s t) ∧
    (∃ t, exec (.subi rd rs imm4) s = .next t ∧
      (t.reg rd).toNat = (65536 + (s.reg rs).toNat - (signed4 imm4).toNat) % 65536 ∧
      SubFlagsAre t.flags (s.reg rs).toNat (signed4 imm4).toNat ∧ AluFrame rd s t)

/-- R143: for add and sub, O reports signed two's-complement overflow: it is set exactly when the exact signed sum or
difference does not fit 16 bits, and when it is clear the result is exact. -/
def Obligations.OverflowIsSignedOverflow : Prop :=
  ∀ (s t u : State) (rd rs rt : Reg), exec (.add rd rs rt) s = .next t → exec (.sub rd rs rt) s = .next u →
    let a := (s.reg rs).toInt
    let b := (s.reg rt).toInt
    (t.flags.o = true ↔ ¬ (-32768 ≤ a + b ∧ a + b ≤ 32767)) ∧ (t.flags.o = false → (t.reg rd).toInt = a + b) ∧
    (u.flags.o = true ↔ ¬ (-32768 ≤ a - b ∧ a - b ≤ 32767)) ∧ (u.flags.o = false → (u.reg rd).toInt = a - b)

/-- R142: compare gives exactly the flags of sub on the same operands and reports the result 0, which is written to no
register. -/
def Obligations.CompareSetsFlagsOfSubOnly : Prop :=
  ∀ (s : State) (rd rs rt : Reg) (imm4 : BitVec 4),
    let done := fun (i sub : Instr) (b : Word) => ∃ t u, exec i s = .next t ∧ exec sub s = .next u ∧
      t.flags = u.flags ∧ SubFlagsAre t.flags (s.reg rs).toNat b.toNat ∧ (aluCompare (s.reg rs) b).result = 0 ∧
      KeepsRegs s t ∧ t.pc = s.pc ∧ t.sp = s.sp ∧ KeepsEngine s t ∧ KeepsMemory s t
    done (.cmp rs rt) (.sub rd rs rt) (s.reg rt) ∧ done (.cmpi rs imm4) (.subi rd rs imm4) (signed4 imm4)

/-- R134: the low 16 bits of the unsigned product, Carry iff the full product exceeds 0xFFFF. That it is unsigned, and Z,
N and O, are the spec's decisions D10 and D9 (log 16). -/
def Obligations.MulWritesLowProductAndFlags : Prop :=
  ∀ (s : State) (rd rs rt : Reg) (imm4 : BitVec 4),
    (∃ t, exec (.mul rd rs rt) s = .next t ∧ MulWrote rd s t (s.reg rs).toNat (s.reg rt).toNat) ∧
    (∃ t, exec (.muli rd rs imm4) s = .next t ∧ MulWrote rd s t (s.reg rs).toNat (signed4 imm4).toNat)

/-- R135: the truncated unsigned quotient; by zero the sentinel 0xFFFF with O = 1, Z = C = 0 and N the parameter DIV0_N,
and the program goes on. Signedness and the flags the source does not name are the spec's decisions D10 and D9
(logs 6, 16). -/
def Obligations.DivWritesQuotientOrSentinel : Prop :=
  ∀ (s : State) (rd rs rt : Reg) (imm4 : BitVec 4),
    (∃ t, exec (.div rd rs rt) s = .next t ∧ DivWrote rd s t (s.reg rs).toNat (s.reg rt).toNat) ∧
    (∃ t, exec (.divi rd rs imm4) s = .next t ∧ DivWrote rd s t (s.reg rs).toNat (signed4 imm4).toNat)

/-- R136, R137, R138, R139: the bitwise operations, Zero and Negative from the result, Carry and Overflow cleared. That
they are cleared, and not kept, is the spec's reading of its source (90_conflicts.md C3, R130, decision D9; log 16), the
immediate forms are its decision D4 (log 11). -/
def Obligations.BitwiseOperationsSetZeroAndNegativeOnly : Prop :=
  ∀ (s : State) (rd rs rt : Reg) (imm4 : BitVec 4),
    let a := s.reg rs
    let b := s.reg rt
    let j := signed4 imm4
    let wrote := fun (i : Instr) (bit : Nat → Bool) => ∃ t, exec i s = .next t ∧ BitsWrote rd s t bit
    wrote (.and rd rs rt) (fun k => a.getLsbD k && b.getLsbD k) ∧
    wrote (.andi rd rs imm4) (fun k => a.getLsbD k && j.getLsbD k) ∧
    wrote (.or rd rs rt) (fun k => a.getLsbD k || b.getLsbD k) ∧
    wrote (.ori rd rs imm4) (fun k => a.getLsbD k || j.getLsbD k) ∧
    wrote (.xor rd rs rt) (fun k => a.getLsbD k != b.getLsbD k) ∧
    wrote (.xori rd rs imm4) (fun k => a.getLsbD k != j.getLsbD k) ∧
    wrote (.not rd rs) (fun k => !a.getLsbD k)

/-- R140: SHL by the whole 16-bit amount, Carry the last bit shifted out. The amount's width, the carry of a shift by 0
and the parameter SHIFT16_C at exactly 16 are the spec's decision D11 (log 7). -/
def Obligations.ShlShiftsByWholeAmount : Prop :=
  ∀ (s : State) (rd rs rt : Reg) (imm4 : BitVec 4),
    (∃ t, exec (.shl rd rs rt) s = .next t ∧ ShlWrote rd s t (s.reg rs).toNat (s.reg rt).toNat) ∧
    (∃ t, exec (.shli rd rs imm4) s = .next t ∧ ShlWrote rd s t (s.reg rs).toNat (signed4 imm4).toNat)

/-- R141: SHR, logical, by the whole 16-bit amount, Carry the last bit shifted out; decision D11 (log 7) as for SHL. -/
def Obligations.ShrShiftsByWholeAmount : Prop :=
  ∀ (s : State) (rd rs rt : Reg) (imm4 : BitVec 4),
    (∃ t, exec (.shr rd rs rt) s = .next t ∧ ShrWrote rd s t (s.reg rs).toNat (s.reg rt).toNat) ∧
    (∃ t, exec (.shri rd rs imm4) s = .next t ∧ ShrWrote rd s t (s.reg rs).toNat (signed4 imm4).toNat)

/-- R85, R181: each immediate form does exactly what its register form does with a register that holds the sign-extended
immediate. That every binary operation has an immediate form is the spec's decision D4 (log 11). -/
def Obligations.ImmediateFormsActOnTheSignExtendedField : Prop :=
  ∀ (s : State) (rd rs rt : Reg) (imm4 : BitVec 4), (s.reg rt).toInt = imm4.toInt →
    exec (.addi rd rs imm4) s = exec (.add rd rs rt) s ∧ exec (.subi rd rs imm4) s = exec (.sub rd rs rt) s ∧
    exec (.muli rd rs imm4) s = exec (.mul rd rs rt) s ∧ exec (.divi rd rs imm4) s = exec (.div rd rs rt) s ∧
    exec (.andi rd rs imm4) s = exec (.and rd rs rt) s ∧ exec (.ori rd rs imm4) s = exec (.or rd rs rt) s ∧
    exec (.xori rd rs imm4) s = exec (.xor rd rs rt) s ∧ exec (.shli rd rs imm4) s = exec (.shl rd rs rt) s ∧
    exec (.shri rd rs imm4) s = exec (.shr rd rs rt) s ∧ exec (.cmpi rs imm4) s = exec (.cmp rs rt) s

/-! ## Control transfer, stack, halt -/

/-- R211, R87: a step at a JMP goes to its extended word, the word just after its base word, and changes nothing else but
that the step is counted; the exec form of it writes `pc` alone. That the flags stay is the spec's decision D8
(log 14). -/
def Obligations.JmpGoesToItsExtendedWord : Prop :=
  (∀ (s : State) (target : Word), ∃ t, exec (.jmp target) s = .next t ∧ t.pc = target ∧ t.sp = s.sp ∧
    t.flags = s.flags ∧ KeepsRegs s t ∧ KeepsEngine s t ∧ KeepsMemory s t) ∧
  (∀ (s : State) (target : Word) (rest : List Byte), s.halted = false →
    decode s.cfg.opcodeMap s.bytesAtPc = .ok (.jmp target, rest) →
    ∃ t, step s = .next t ∧ t.pc.toNat = s.wordValue (s.pc + 2) ∧ t.pc = target ∧ t.sp = s.sp ∧ t.flags = s.flags ∧
      KeepsRegs s t ∧ KeepsMemory s t ∧ t.cfg = s.cfg ∧ t.halted = false ∧ t.illegal = s.illegal ∧
      t.icount = (s.icount + 1) % 2 ^ s.cfg.icountBits)

/-- R217: CALL pushes the address after itself (the base word's address plus 4) and goes to its target; `sp` is 2
lower, modulo 2^16, and nothing else changes. That the flags stay is the spec's decision D8 (log 14). -/
def Obligations.CallPushesReturnAddress : Prop :=
  ∀ (s : State) (target : Word), ∃ t, exec (.call target) s = .next t ∧ t.pc = target ∧ t.sp = s.sp - 2 ∧
    WordStored s t (s.sp - 2) (s.pc + 2) ∧ t.flags = s.flags ∧ KeepsRegs s t ∧ KeepsEngine s t

/-- R218: RET goes to the word at the old `sp`, which is then 2 higher, and changes nothing else. That the flags stay
is the spec's decision D8 (log 14). -/
def Obligations.RetPopsTheProgramCounter : Prop :=
  ∀ s : State, ∃ t, exec .ret s = .next t ∧ t.pc.toNat = s.wordValue s.sp ∧ t.sp = s.sp + 2 ∧ t.flags = s.flags ∧
    KeepsRegs s t ∧ KeepsEngine s t ∧ KeepsMemory s t

/-- R218: a CALL followed by a RET with the stack balanced returns to the instruction after the CALL, `sp` where it was,
unless a byte of the return address fell on the console's address. -/
def Obligations.RetReturnsToAfterTheCall : Prop :=
  ∀ (s t : State) (target : Word), s.sp - 2 ≠ s.cfg.consoleAddr → s.sp - 1 ≠ s.cfg.consoleAddr →
    exec (.call target) s = .next t → ∃ u, exec .ret t = .next u ∧ u.pc = s.pc + 2 ∧ u.sp = s.sp ∧ KeepsRegs s u

/-- R230: PUSH lowers `sp` by 2 and then stores its register's word there; nothing else changes. That `rd` names the
register is the spec's decision D6 (log 11). That the flags stay is the spec's decision D8 (log 14). -/
def Obligations.PushStoresBelowTheStackPointer : Prop :=
  ∀ (s : State) (rd : Reg), ∃ t, exec (.push rd) s = .next t ∧ t.sp = s.sp - 2 ∧
    WordStored s t (s.sp - 2) (s.reg rd) ∧ t.pc = s.pc ∧ t.flags = s.flags ∧ KeepsRegs s t ∧ KeepsEngine s t

/-- R231: POP reads the word at the old `sp` into its register and then raises `sp` by 2; the bytes stay in memory and
nothing else changes. That `rd` names the register is the spec's decision D6 (log 11). That the flags stay is the
spec's decision D8 (log 14). -/
def Obligations.PopReadsAtTheStackPointer : Prop :=
  ∀ (s : State) (rd : Reg), ∃ t, exec (.pop rd) s = .next t ∧ (t.reg rd).toNat = s.wordValue s.sp ∧ t.sp = s.sp + 2 ∧
    KeepsRegsBut rd s t ∧ t.pc = s.pc ∧ t.flags = s.flags ∧ KeepsEngine s t ∧ KeepsMemory s t

/-- R231: a PUSH and then a POP into any register gives the pushed value and `sp` back; where the low byte fell on the
console's address, the popped low byte is the one stored there before. -/
def Obligations.PopReturnsWhatWasPushed : Prop :=
  ∀ (s t : State) (rd rd' : Reg), exec (.push rd) s = .next t → ∃ u, exec (.pop rd') t = .next u ∧ u.sp = s.sp ∧
    (s.sp - 2 ≠ s.cfg.consoleAddr → s.sp - 1 ≠ s.cfg.consoleAddr → u.reg rd' = s.reg rd) ∧
    (s.sp - 2 = s.cfg.consoleAddr →
      (u.reg rd').toNat = (s.readByte (s.sp - 2)).toNat + 256 * ((s.reg rd).toNat / 256)) ∧
    (s.sp - 1 = s.cfg.consoleAddr →
      (u.reg rd').toNat = (s.reg rd).toNat % 256 + 256 * (s.readByte (s.sp - 1)).toNat)

/-- R240, R241: HALT sets `halted` and changes nothing else, `illegal` included, and every later step is a no-op: from
a running core without the illegal mark it is a normal end. That the flags stay is the spec's decision D8 (log 14). -/
def Obligations.HaltEndsTheRunNormally : Prop :=
  ∀ s : State, ∃ t, exec .halt s = .next t ∧ t.halted = true ∧ t.illegal = s.illegal ∧ t.cfg = s.cfg ∧
    t.icount = s.icount ∧ t.pc = s.pc ∧ t.sp = s.sp ∧ t.flags = s.flags ∧ KeepsRegs s t ∧ KeepsMemory s t ∧
    (s.illegal = false → t.normalEnd) ∧ ∀ k, core.run k t = .next t
end

