-- ==== Sys2Proof/Laws/Decode.lean ====
section
/-! SUPPORT. The opcode map: under a well-formed map every opcode has one value, and looking that value up gives the
opcode back (92_eei_decisions.md, OPCODE_MAP). -/

namespace Sys2Proof

/-- The list of opcodes misses none. -/
theorem Op.mem_all (o : Op) : o ∈ Op.all := by
  cases o <;> decide

theorem OpcodeMap.lookup_of_mem {m : OpcodeMap} (hm : (m.map Prod.fst).Nodup) {k : BitVec 6} {o : Op}
    (h : (k, o) ∈ m) : m.lookup k = some o := by
  induction m with
  | nil => cases h
  | cons p m ih =>
    obtain ⟨k', o'⟩ := p
    rw [List.map_cons, List.nodup_cons] at hm
    rcases List.mem_cons.mp h with heq | htail
    · cases heq; simp [OpcodeMap.lookup]
    · have hk : k ≠ k' := fun e => hm.1 (List.mem_map.mpr ⟨(k, o), htail, e⟩)
      simp only [OpcodeMap.lookup, hk, if_false]
      exact ih hm.2 htail

theorem OpcodeMap.mem_of_lookup {m : OpcodeMap} {k : BitVec 6} {o : Op} (h : m.lookup k = some o) : (k, o) ∈ m := by
  induction m with
  | nil => cases h
  | cons p m ih =>
    obtain ⟨k', o'⟩ := p
    simp only [OpcodeMap.lookup] at h
    split at h
    · rename_i hk; cases h; simp [hk]
    · exact List.mem_cons_of_mem _ (ih h)

theorem OpcodeMap.mem_of_codeOf {m : OpcodeMap} {k : BitVec 6} {o : Op} (h : m.codeOf o = some k) : (k, o) ∈ m := by
  induction m with
  | nil => cases h
  | cons p m ih =>
    obtain ⟨k', o'⟩ := p
    simp only [OpcodeMap.codeOf] at h
    split at h
    · rename_i ho; cases h; simp [ho]
    · exact List.mem_cons_of_mem _ (ih h)

theorem OpcodeMap.codeOf_of_mem {m : OpcodeMap} {o : Op} (h : o ∈ m.map Prod.snd) : ∃ k, m.codeOf o = some k := by
  induction m with
  | nil => cases h
  | cons p m ih =>
    obtain ⟨k', o'⟩ := p
    by_cases ho : o = o'
    · exact ⟨k', by simp [OpcodeMap.codeOf, ho]⟩
    · obtain ⟨k, hk⟩ := ih ((List.mem_cons.mp h).resolve_left ho)
      exact ⟨k, by simp [OpcodeMap.codeOf, ho, hk]⟩

/-- Under a well-formed map every opcode has a value, and that value is looked up as the opcode. -/
theorem OpcodeMap.code_of_wf {m : OpcodeMap} (hm : m.wf = true) (o : Op) :
    ∃ k, m.codeOf o = some k ∧ m.lookup k = some o := by
  simp only [OpcodeMap.wf, Bool.and_eq_true, decide_eq_true_eq, List.all_eq_true] at hm
  obtain ⟨k, hk⟩ := OpcodeMap.codeOf_of_mem (hm.1.2 o (Op.mem_all o))
  exact ⟨k, hk, OpcodeMap.lookup_of_mem hm.1.1.1 (OpcodeMap.mem_of_codeOf hk)⟩

/-- Under a well-formed map every instruction is well-formed. -/
theorem Instr.wf_of_map_wf {m : OpcodeMap} (hm : m.wf = true) (i : Instr) : i.wf m = true := by
  simp only [OpcodeMap.wf, Bool.and_eq_true, List.all_eq_true] at hm
  exact hm.1.2 i.op (Op.mem_all i.op)

/-- The default map is well-formed. -/
theorem defaultOpcodeMap_wf : defaultOpcodeMap.wf = true := by decide

end Sys2Proof
end

