-- ==== Sys2Proof/Laws/Memory.lean ====
section
/-! SUPPORT. The byte array: a read after a write, and that every memory operation keeps the canonical form. -/

namespace Sys2Proof.Machine

/-! ## A read after a write -/

theorem Memory.read_remove (m : Memory) (k j : Nat) :
    (m.remove k).read j = if j = k then unlistedByte else m.read j := by
  induction m with
  | nil => simp [Memory.remove, Memory.read]
  | cons p m ih =>
    obtain ⟨a, b⟩ := p
    by_cases ha : a = k
    · subst ha
      simp only [Memory.remove, if_true, ih, Memory.read]
      by_cases hj : j = a <;> simp [hj]
    · simp only [Memory.remove, ha, if_false, Memory.read, ih]
      by_cases hj : j = a
      · subst hj; simp [ha]
      · simp [hj]

theorem Memory.read_insert (m : Memory) (k j : Nat) (v : Byte) (h : ∀ p ∈ m, p.1 ≠ k) :
    (m.insert k v).read j = if j = k then v else m.read j := by
  induction m with
  | nil => simp [Memory.insert, Memory.read]
  | cons p m ih =>
    obtain ⟨a, b⟩ := p
    have ha : a ≠ k := h (a, b) (by simp)
    have ih' := ih fun q hq => h q (by simp [hq])
    simp only [Memory.insert]
    split
    · simp [Memory.read]
    · simp only [Memory.read, ih']
      by_cases hj : j = a
      · subst hj; simp [ha]
      · simp [hj]

theorem Memory.remove_absent (m : Memory) (k : Nat) : ∀ p ∈ m.remove k, p.1 ≠ k := by
  induction m with
  | nil => simp [Memory.remove]
  | cons p m ih =>
    obtain ⟨a, b⟩ := p
    by_cases ha : a = k
    · simpa [Memory.remove, ha] using ih
    · simpa [Memory.remove, ha] using ih

/-- A read after a write gives the byte written there, and every other byte as it was. -/
theorem Memory.read_write (m : Memory) (k j : Nat) (v : Byte) :
    (m.write k v).read j = if j = k then v else m.read j := by
  unfold Memory.write
  split
  · rename_i hv; simp [Memory.read_remove, hv]
  · simp only [Memory.read_insert _ _ _ _ (Memory.remove_absent m k), Memory.read_remove]
    by_cases hj : j = k <;> simp [hj]

/-! ## The canonical form -/

theorem Memory.wfFrom_mono {m : Memory} {lo lo' : Nat} (h : lo' ≤ lo) (hm : m.wfFrom lo = true) :
    m.wfFrom lo' = true := by
  cases m with
  | nil => rfl
  | cons p m =>
    simp only [Memory.wfFrom, Bool.and_eq_true, decide_eq_true_eq] at hm ⊢
    exact ⟨⟨⟨by omega, hm.1.1.2⟩, hm.1.2⟩, hm.2⟩

theorem Memory.wfFrom_remove {m : Memory} {lo : Nat} (k : Nat) (hm : m.wfFrom lo = true) :
    (m.remove k).wfFrom lo = true := by
  induction m generalizing lo with
  | nil => rfl
  | cons p m ih =>
    obtain ⟨a, b⟩ := p
    simp only [Memory.wfFrom, Bool.and_eq_true, decide_eq_true_eq] at hm
    by_cases ha : a = k
    · simp only [Memory.remove, ha, if_true]
      exact Memory.wfFrom_mono (by omega) (ih hm.2)
    · simp only [Memory.remove, ha, if_false, Memory.wfFrom, Bool.and_eq_true, decide_eq_true_eq]
      exact ⟨hm.1, ih hm.2⟩

theorem Memory.wfFrom_insert {m : Memory} {lo k : Nat} {v : Byte} (hm : m.wfFrom lo = true) (hlo : lo ≤ k)
    (hk : k < 65536) (hv : v ≠ unlistedByte) (h : ∀ p ∈ m, p.1 ≠ k) : (m.insert k v).wfFrom lo = true := by
  induction m generalizing lo with
  | nil => simp [Memory.insert, Memory.wfFrom, hlo, hk, hv]
  | cons p m ih =>
    obtain ⟨a, b⟩ := p
    simp only [Memory.wfFrom, Bool.and_eq_true, decide_eq_true_eq] at hm
    have ha : a ≠ k := h (a, b) (by simp)
    simp only [Memory.insert]
    split
    · simp only [Memory.wfFrom, Bool.and_eq_true, decide_eq_true_eq]
      exact ⟨⟨⟨hlo, hk⟩, hv⟩, ⟨⟨by omega, hm.1.1.2⟩, hm.1.2⟩, hm.2⟩
    · simp only [Memory.wfFrom, Bool.and_eq_true, decide_eq_true_eq]
      exact ⟨hm.1, ih hm.2 (by omega) fun q hq => h q (by simp [hq])⟩

/-- A write at an address of the space keeps the canonical form. -/
theorem Memory.wf_write {m : Memory} (hm : m.wf = true) {k : Nat} (hk : k < 65536) (v : Byte) :
    (m.write k v).wf = true := by
  unfold Memory.write
  split
  · exact Memory.wfFrom_remove k hm
  · rename_i hv
    exact Memory.wfFrom_insert (Memory.wfFrom_remove k hm) (Nat.zero_le k) hk hv (Memory.remove_absent m k)

/-- The host's load keeps the canonical form where the image fits the space (R286). -/
theorem Memory.wf_writeAll {m : Memory} (hm : m.wf = true) {k : Nat} {bs : List Byte}
    (hk : k + bs.length ≤ 65536) : (m.writeAll k bs).wf = true := by
  induction bs generalizing m k with
  | nil => exact hm
  | cons b bs ih =>
    simp only [List.length_cons] at hk
    exact ih (Memory.wf_write hm (by omega) b) (by omega)

/-- The memory of the state after reset is in canonical form. -/
theorem State.reset_mem_wf : State.reset.mem.wf = true := rfl

end Sys2Proof.Machine
end

