-- ==== Sys2Proof/Laws/State.lean ====
section
/-! SUPPORT. The state's small lemmas: what each field, register and byte is after each plain update, true by
definition, so that no proof unfolds a record update. Memory writes are in Laws/Ops. -/

namespace Sys2Proof.Machine

/-! ## setReg -/

@[simp] theorem State.setReg_cfg (s : State) (i : Reg) (v : Word) : (s.setReg i v).cfg = s.cfg := rfl
@[simp] theorem State.setReg_regs (s : State) (i : Reg) (v : Word) : (s.setReg i v).regs = s.regs.set i v := rfl
@[simp] theorem State.setReg_pc (s : State) (i : Reg) (v : Word) : (s.setReg i v).pc = s.pc := rfl
@[simp] theorem State.setReg_sp (s : State) (i : Reg) (v : Word) : (s.setReg i v).sp = s.sp := rfl
@[simp] theorem State.setReg_flags (s : State) (i : Reg) (v : Word) : (s.setReg i v).flags = s.flags := rfl
@[simp] theorem State.setReg_halted (s : State) (i : Reg) (v : Word) : (s.setReg i v).halted = s.halted := rfl
@[simp] theorem State.setReg_illegal (s : State) (i : Reg) (v : Word) : (s.setReg i v).illegal = s.illegal := rfl
@[simp] theorem State.setReg_icount (s : State) (i : Reg) (v : Word) : (s.setReg i v).icount = s.icount := rfl
@[simp] theorem State.setReg_mem (s : State) (i : Reg) (v : Word) : (s.setReg i v).mem = s.mem := rfl
@[simp] theorem State.setReg_out (s : State) (i : Reg) (v : Word) : (s.setReg i v).out = s.out := rfl
@[simp] theorem State.setReg_readByte (s : State) (i : Reg) (v : Word) (k : Word) : (s.setReg i v).readByte k = s.readByte k := rfl
@[simp] theorem State.setReg_readWord (s : State) (i : Reg) (v : Word) (k : Word) : (s.setReg i v).readWord k = s.readWord k := rfl

/-! ## setFlags -/

@[simp] theorem State.setFlags_cfg (s : State) (f : Flags) : (s.setFlags f).cfg = s.cfg := rfl
@[simp] theorem State.setFlags_regs (s : State) (f : Flags) : (s.setFlags f).regs = s.regs := rfl
@[simp] theorem State.setFlags_pc (s : State) (f : Flags) : (s.setFlags f).pc = s.pc := rfl
@[simp] theorem State.setFlags_sp (s : State) (f : Flags) : (s.setFlags f).sp = s.sp := rfl
@[simp] theorem State.setFlags_flags (s : State) (f : Flags) : (s.setFlags f).flags = f := rfl
@[simp] theorem State.setFlags_halted (s : State) (f : Flags) : (s.setFlags f).halted = s.halted := rfl
@[simp] theorem State.setFlags_illegal (s : State) (f : Flags) : (s.setFlags f).illegal = s.illegal := rfl
@[simp] theorem State.setFlags_icount (s : State) (f : Flags) : (s.setFlags f).icount = s.icount := rfl
@[simp] theorem State.setFlags_mem (s : State) (f : Flags) : (s.setFlags f).mem = s.mem := rfl
@[simp] theorem State.setFlags_out (s : State) (f : Flags) : (s.setFlags f).out = s.out := rfl
@[simp] theorem State.setFlags_reg (s : State) (f : Flags) (j : Reg) : (s.setFlags f).reg j = s.reg j := rfl
@[simp] theorem State.setFlags_readByte (s : State) (f : Flags) (k : Word) : (s.setFlags f).readByte k = s.readByte k := rfl
@[simp] theorem State.setFlags_readWord (s : State) (f : Flags) (k : Word) : (s.setFlags f).readWord k = s.readWord k := rfl

/-! ## setPc -/

@[simp] theorem State.setPc_cfg (s : State) (a : Word) : (s.setPc a).cfg = s.cfg := rfl
@[simp] theorem State.setPc_regs (s : State) (a : Word) : (s.setPc a).regs = s.regs := rfl
@[simp] theorem State.setPc_pc (s : State) (a : Word) : (s.setPc a).pc = a := rfl
@[simp] theorem State.setPc_sp (s : State) (a : Word) : (s.setPc a).sp = s.sp := rfl
@[simp] theorem State.setPc_flags (s : State) (a : Word) : (s.setPc a).flags = s.flags := rfl
@[simp] theorem State.setPc_halted (s : State) (a : Word) : (s.setPc a).halted = s.halted := rfl
@[simp] theorem State.setPc_illegal (s : State) (a : Word) : (s.setPc a).illegal = s.illegal := rfl
@[simp] theorem State.setPc_icount (s : State) (a : Word) : (s.setPc a).icount = s.icount := rfl
@[simp] theorem State.setPc_mem (s : State) (a : Word) : (s.setPc a).mem = s.mem := rfl
@[simp] theorem State.setPc_out (s : State) (a : Word) : (s.setPc a).out = s.out := rfl
@[simp] theorem State.setPc_reg (s : State) (a : Word) (j : Reg) : (s.setPc a).reg j = s.reg j := rfl
@[simp] theorem State.setPc_readByte (s : State) (a : Word) (k : Word) : (s.setPc a).readByte k = s.readByte k := rfl
@[simp] theorem State.setPc_readWord (s : State) (a : Word) (k : Word) : (s.setPc a).readWord k = s.readWord k := rfl

/-! ## setSp -/

@[simp] theorem State.setSp_cfg (s : State) (v : Word) : (s.setSp v).cfg = s.cfg := rfl
@[simp] theorem State.setSp_regs (s : State) (v : Word) : (s.setSp v).regs = s.regs := rfl
@[simp] theorem State.setSp_sp (s : State) (v : Word) : (s.setSp v).sp = v := rfl
@[simp] theorem State.setSp_pc (s : State) (v : Word) : (s.setSp v).pc = s.pc := rfl
@[simp] theorem State.setSp_flags (s : State) (v : Word) : (s.setSp v).flags = s.flags := rfl
@[simp] theorem State.setSp_halted (s : State) (v : Word) : (s.setSp v).halted = s.halted := rfl
@[simp] theorem State.setSp_illegal (s : State) (v : Word) : (s.setSp v).illegal = s.illegal := rfl
@[simp] theorem State.setSp_icount (s : State) (v : Word) : (s.setSp v).icount = s.icount := rfl
@[simp] theorem State.setSp_mem (s : State) (v : Word) : (s.setSp v).mem = s.mem := rfl
@[simp] theorem State.setSp_out (s : State) (v : Word) : (s.setSp v).out = s.out := rfl
@[simp] theorem State.setSp_reg (s : State) (v : Word) (j : Reg) : (s.setSp v).reg j = s.reg j := rfl
@[simp] theorem State.setSp_readByte (s : State) (v : Word) (k : Word) : (s.setSp v).readByte k = s.readByte k := rfl
@[simp] theorem State.setSp_readWord (s : State) (v : Word) (k : Word) : (s.setSp v).readWord k = s.readWord k := rfl

/-! ## advancePc -/

@[simp] theorem State.advancePc_cfg (s : State) : (s.advancePc).cfg = s.cfg := rfl
@[simp] theorem State.advancePc_regs (s : State) : (s.advancePc).regs = s.regs := rfl
@[simp] theorem State.advancePc_pc (s : State) : (s.advancePc).pc = s.pc + 2 := rfl
@[simp] theorem State.advancePc_sp (s : State) : (s.advancePc).sp = s.sp := rfl
@[simp] theorem State.advancePc_flags (s : State) : (s.advancePc).flags = s.flags := rfl
@[simp] theorem State.advancePc_halted (s : State) : (s.advancePc).halted = s.halted := rfl
@[simp] theorem State.advancePc_illegal (s : State) : (s.advancePc).illegal = s.illegal := rfl
@[simp] theorem State.advancePc_icount (s : State) : (s.advancePc).icount = s.icount := rfl
@[simp] theorem State.advancePc_mem (s : State) : (s.advancePc).mem = s.mem := rfl
@[simp] theorem State.advancePc_out (s : State) : (s.advancePc).out = s.out := rfl
@[simp] theorem State.advancePc_reg (s : State) (j : Reg) : (s.advancePc).reg j = s.reg j := rfl
@[simp] theorem State.advancePc_readByte (s : State) (k : Word) : (s.advancePc).readByte k = s.readByte k := rfl
@[simp] theorem State.advancePc_readWord (s : State) (k : Word) : (s.advancePc).readWord k = s.readWord k := rfl

/-! ## countStep -/

@[simp] theorem State.countStep_cfg (s : State) : (s.countStep).cfg = s.cfg := rfl
@[simp] theorem State.countStep_regs (s : State) : (s.countStep).regs = s.regs := rfl
@[simp] theorem State.countStep_pc (s : State) : (s.countStep).pc = s.pc := rfl
@[simp] theorem State.countStep_sp (s : State) : (s.countStep).sp = s.sp := rfl
@[simp] theorem State.countStep_flags (s : State) : (s.countStep).flags = s.flags := rfl
@[simp] theorem State.countStep_halted (s : State) : (s.countStep).halted = s.halted := rfl
@[simp] theorem State.countStep_illegal (s : State) : (s.countStep).illegal = s.illegal := rfl
@[simp] theorem State.countStep_icount (s : State) : (s.countStep).icount = (s.icount + 1) % 2 ^ s.cfg.icountBits := rfl
@[simp] theorem State.countStep_mem (s : State) : (s.countStep).mem = s.mem := rfl
@[simp] theorem State.countStep_out (s : State) : (s.countStep).out = s.out := rfl
@[simp] theorem State.countStep_reg (s : State) (j : Reg) : (s.countStep).reg j = s.reg j := rfl
@[simp] theorem State.countStep_readByte (s : State) (k : Word) : (s.countStep).readByte k = s.readByte k := rfl
@[simp] theorem State.countStep_readWord (s : State) (k : Word) : (s.countStep).readWord k = s.readWord k := rfl

/-! ## dropWord -/

@[simp] theorem State.dropWord_cfg (s : State) : (s.dropWord).cfg = s.cfg := rfl
@[simp] theorem State.dropWord_regs (s : State) : (s.dropWord).regs = s.regs := rfl
@[simp] theorem State.dropWord_pc (s : State) : (s.dropWord).pc = s.pc := rfl
@[simp] theorem State.dropWord_sp (s : State) : (s.dropWord).sp = s.sp + 2 := rfl
@[simp] theorem State.dropWord_flags (s : State) : (s.dropWord).flags = s.flags := rfl
@[simp] theorem State.dropWord_halted (s : State) : (s.dropWord).halted = s.halted := rfl
@[simp] theorem State.dropWord_illegal (s : State) : (s.dropWord).illegal = s.illegal := rfl
@[simp] theorem State.dropWord_icount (s : State) : (s.dropWord).icount = s.icount := rfl
@[simp] theorem State.dropWord_mem (s : State) : (s.dropWord).mem = s.mem := rfl
@[simp] theorem State.dropWord_out (s : State) : (s.dropWord).out = s.out := rfl
@[simp] theorem State.dropWord_reg (s : State) (j : Reg) : (s.dropWord).reg j = s.reg j := rfl
@[simp] theorem State.dropWord_readByte (s : State) (k : Word) : (s.dropWord).readByte k = s.readByte k := rfl
@[simp] theorem State.dropWord_readWord (s : State) (k : Word) : (s.dropWord).readWord k = s.readWord k := rfl

/-! ## halt -/

@[simp] theorem State.halt_cfg (s : State) : (s.halt).cfg = s.cfg := rfl
@[simp] theorem State.halt_regs (s : State) : (s.halt).regs = s.regs := rfl
@[simp] theorem State.halt_pc (s : State) : (s.halt).pc = s.pc := rfl
@[simp] theorem State.halt_sp (s : State) : (s.halt).sp = s.sp := rfl
@[simp] theorem State.halt_flags (s : State) : (s.halt).flags = s.flags := rfl
@[simp] theorem State.halt_halted (s : State) : (s.halt).halted = true := rfl
@[simp] theorem State.halt_illegal (s : State) : (s.halt).illegal = s.illegal := rfl
@[simp] theorem State.halt_icount (s : State) : (s.halt).icount = s.icount := rfl
@[simp] theorem State.halt_mem (s : State) : (s.halt).mem = s.mem := rfl
@[simp] theorem State.halt_out (s : State) : (s.halt).out = s.out := rfl
@[simp] theorem State.halt_reg (s : State) (j : Reg) : (s.halt).reg j = s.reg j := rfl
@[simp] theorem State.halt_readByte (s : State) (k : Word) : (s.halt).readByte k = s.readByte k := rfl
@[simp] theorem State.halt_readWord (s : State) (k : Word) : (s.halt).readWord k = s.readWord k := rfl

/-! ## raiseIllegalOpcode -/

@[simp] theorem State.raiseIllegalOpcode_cfg (s : State) (e : IllegalOpcode) : (s.raiseIllegalOpcode e).cfg = s.cfg := rfl
@[simp] theorem State.raiseIllegalOpcode_regs (s : State) (e : IllegalOpcode) : (s.raiseIllegalOpcode e).regs = s.regs := rfl
@[simp] theorem State.raiseIllegalOpcode_pc (s : State) (e : IllegalOpcode) : (s.raiseIllegalOpcode e).pc = s.pc := rfl
@[simp] theorem State.raiseIllegalOpcode_sp (s : State) (e : IllegalOpcode) : (s.raiseIllegalOpcode e).sp = s.sp := rfl
@[simp] theorem State.raiseIllegalOpcode_flags (s : State) (e : IllegalOpcode) : (s.raiseIllegalOpcode e).flags = s.flags := rfl
@[simp] theorem State.raiseIllegalOpcode_halted (s : State) (e : IllegalOpcode) : (s.raiseIllegalOpcode e).halted = true := rfl
@[simp] theorem State.raiseIllegalOpcode_illegal (s : State) (e : IllegalOpcode) : (s.raiseIllegalOpcode e).illegal = true := rfl
@[simp] theorem State.raiseIllegalOpcode_icount (s : State) (e : IllegalOpcode) : (s.raiseIllegalOpcode e).icount = s.icount := rfl
@[simp] theorem State.raiseIllegalOpcode_mem (s : State) (e : IllegalOpcode) : (s.raiseIllegalOpcode e).mem = s.mem := rfl
@[simp] theorem State.raiseIllegalOpcode_out (s : State) (e : IllegalOpcode) : (s.raiseIllegalOpcode e).out = s.out := rfl
@[simp] theorem State.raiseIllegalOpcode_reg (s : State) (e : IllegalOpcode) (j : Reg) : (s.raiseIllegalOpcode e).reg j = s.reg j := rfl
@[simp] theorem State.raiseIllegalOpcode_readByte (s : State) (e : IllegalOpcode) (k : Word) : (s.raiseIllegalOpcode e).readByte k = s.readByte k := rfl
@[simp] theorem State.raiseIllegalOpcode_readWord (s : State) (e : IllegalOpcode) (k : Word) : (s.raiseIllegalOpcode e).readWord k = s.readWord k := rfl

/-! ## beginExecute -/

@[simp] theorem State.beginExecute_cfg (s : State) : (s.beginExecute).cfg = s.cfg := rfl
@[simp] theorem State.beginExecute_regs (s : State) : (s.beginExecute).regs = s.regs := rfl
@[simp] theorem State.beginExecute_pc (s : State) : (s.beginExecute).pc = s.pc + 2 := rfl
@[simp] theorem State.beginExecute_sp (s : State) : (s.beginExecute).sp = s.sp := rfl
@[simp] theorem State.beginExecute_flags (s : State) : (s.beginExecute).flags = s.flags := rfl
@[simp] theorem State.beginExecute_halted (s : State) : (s.beginExecute).halted = s.halted := rfl
@[simp] theorem State.beginExecute_illegal (s : State) : (s.beginExecute).illegal = s.illegal := rfl
@[simp] theorem State.beginExecute_icount (s : State) : (s.beginExecute).icount = (s.icount + 1) % 2 ^ s.cfg.icountBits := rfl
@[simp] theorem State.beginExecute_mem (s : State) : (s.beginExecute).mem = s.mem := rfl
@[simp] theorem State.beginExecute_out (s : State) : (s.beginExecute).out = s.out := rfl
@[simp] theorem State.beginExecute_reg (s : State) (j : Reg) : (s.beginExecute).reg j = s.reg j := rfl
@[simp] theorem State.beginExecute_readByte (s : State) (k : Word) : (s.beginExecute).readByte k = s.readByte k := rfl
@[simp] theorem State.beginExecute_readWord (s : State) (k : Word) : (s.beginExecute).readWord k = s.readWord k := rfl

/-! ## writeAlu -/

@[simp] theorem State.writeAlu_cfg (s : State) (rd : Reg) (x : AluOut) : (s.writeAlu rd x).cfg = s.cfg := rfl
@[simp] theorem State.writeAlu_regs (s : State) (rd : Reg) (x : AluOut) : (s.writeAlu rd x).regs = s.regs.set rd x.result := rfl
@[simp] theorem State.writeAlu_pc (s : State) (rd : Reg) (x : AluOut) : (s.writeAlu rd x).pc = s.pc := rfl
@[simp] theorem State.writeAlu_sp (s : State) (rd : Reg) (x : AluOut) : (s.writeAlu rd x).sp = s.sp := rfl
@[simp] theorem State.writeAlu_flags (s : State) (rd : Reg) (x : AluOut) : (s.writeAlu rd x).flags = x.flags := rfl
@[simp] theorem State.writeAlu_halted (s : State) (rd : Reg) (x : AluOut) : (s.writeAlu rd x).halted = s.halted := rfl
@[simp] theorem State.writeAlu_illegal (s : State) (rd : Reg) (x : AluOut) : (s.writeAlu rd x).illegal = s.illegal := rfl
@[simp] theorem State.writeAlu_icount (s : State) (rd : Reg) (x : AluOut) : (s.writeAlu rd x).icount = s.icount := rfl
@[simp] theorem State.writeAlu_mem (s : State) (rd : Reg) (x : AluOut) : (s.writeAlu rd x).mem = s.mem := rfl
@[simp] theorem State.writeAlu_out (s : State) (rd : Reg) (x : AluOut) : (s.writeAlu rd x).out = s.out := rfl
@[simp] theorem State.writeAlu_readByte (s : State) (rd : Reg) (x : AluOut) (k : Word) : (s.writeAlu rd x).readByte k = s.readByte k := rfl
@[simp] theorem State.writeAlu_readWord (s : State) (rd : Reg) (x : AluOut) (k : Word) : (s.writeAlu rd x).readWord k = s.readWord k := rfl

/-! ## hostReset -/

@[simp] theorem State.hostReset_cfg (s : State) : (s.hostReset).cfg = s.cfg := rfl
@[simp] theorem State.hostReset_regs (s : State) : (s.hostReset).regs = Vector.replicate 8 0x0000 := rfl
@[simp] theorem State.hostReset_pc (s : State) : (s.hostReset).pc = 0x0000 := rfl
@[simp] theorem State.hostReset_sp (s : State) : (s.hostReset).sp = s.cfg.stackTop := rfl
@[simp] theorem State.hostReset_flags (s : State) : (s.hostReset).flags = ⟨false, false, false, false⟩ := rfl
@[simp] theorem State.hostReset_halted (s : State) : (s.hostReset).halted = false := rfl
@[simp] theorem State.hostReset_illegal (s : State) : (s.hostReset).illegal = false := rfl
@[simp] theorem State.hostReset_icount (s : State) : (s.hostReset).icount = 0 := rfl
@[simp] theorem State.hostReset_mem (s : State) : (s.hostReset).mem = s.mem := rfl
@[simp] theorem State.hostReset_out (s : State) : (s.hostReset).out = s.out := rfl
@[simp] theorem State.hostReset_readByte (s : State) (k : Word) : (s.hostReset).readByte k = s.readByte k := rfl
@[simp] theorem State.hostReset_readWord (s : State) (k : Word) : (s.hostReset).readWord k = s.readWord k := rfl

/-! ## Registers after a register write -/

/-- `x[j]` after `x[i] <- v` (R23). -/
theorem State.setReg_reg (s : State) (i j : Reg) (v : Word) :
    (s.setReg i v).reg j = if j = i then v else s.reg j := by
  simp only [State.reg, State.setReg, Fin.getElem_fin, Vector.getElem_set, Fin.ext_iff, eq_comm]

@[simp] theorem State.setReg_reg_same (s : State) (i : Reg) (v : Word) : (s.setReg i v).reg i = v := by
  simp [State.setReg_reg]

@[simp] theorem State.setReg_reg_other (s : State) {i j : Reg} (v : Word) (h : j ≠ i) :
    (s.setReg i v).reg j = s.reg j := by
  simp [State.setReg_reg, h]

/-- Writing a register its own value changes nothing: the branch of MOV cannot be observed (R160). -/
theorem State.setReg_self (s : State) (i : Reg) : s.setReg i (s.reg i) = s := by
  simp [State.setReg, State.reg]

@[simp] theorem State.writeAlu_reg_same (s : State) (rd : Reg) (x : AluOut) : (s.writeAlu rd x).reg rd = x.result :=
  State.setReg_reg_same s rd x.result

@[simp] theorem State.writeAlu_reg_other (s : State) {rd j : Reg} (x : AluOut) (h : j ≠ rd) :
    (s.writeAlu rd x).reg j = s.reg j :=
  State.setReg_reg_other s x.result h

/-- Every register holds 0 after reset (R25). -/
@[simp] theorem State.hostReset_reg (s : State) (j : Reg) : s.hostReset.reg j = 0x0000 := by
  simp [State.reg]

end Sys2Proof.Machine
end

