-- ==== Sys2Proof/Laws/Ops.lean ====
section
/-! SUPPORT. What the memory port and the stack operations can do (20_memory.md R52 to R56, 45_stack.md R230): one
lemma a field for the fields they leave alone, and one that says what they write. -/

namespace Sys2Proof.Machine

/-! ## writeByte (R53) -/

@[simp] theorem State.writeByte_cfg (s : State) (a : Word) (b : Byte) : (s.writeByte a b).cfg = s.cfg := by
  unfold State.writeByte; split <;> rfl
@[simp] theorem State.writeByte_regs (s : State) (a : Word) (b : Byte) : (s.writeByte a b).regs = s.regs := by
  unfold State.writeByte; split <;> rfl
@[simp] theorem State.writeByte_pc (s : State) (a : Word) (b : Byte) : (s.writeByte a b).pc = s.pc := by
  unfold State.writeByte; split <;> rfl
@[simp] theorem State.writeByte_sp (s : State) (a : Word) (b : Byte) : (s.writeByte a b).sp = s.sp := by
  unfold State.writeByte; split <;> rfl
@[simp] theorem State.writeByte_flags (s : State) (a : Word) (b : Byte) : (s.writeByte a b).flags = s.flags := by
  unfold State.writeByte; split <;> rfl
@[simp] theorem State.writeByte_halted (s : State) (a : Word) (b : Byte) : (s.writeByte a b).halted = s.halted := by
  unfold State.writeByte; split <;> rfl
@[simp] theorem State.writeByte_illegal (s : State) (a : Word) (b : Byte) : (s.writeByte a b).illegal = s.illegal := by
  unfold State.writeByte; split <;> rfl
@[simp] theorem State.writeByte_icount (s : State) (a : Word) (b : Byte) : (s.writeByte a b).icount = s.icount := by
  unfold State.writeByte; split <;> rfl
@[simp] theorem State.writeByte_reg (s : State) (a : Word) (b : Byte) (j : Reg) : (s.writeByte a b).reg j = s.reg j := by
  simp [State.reg]

/-- Every byte after a byte write: the written one, unless it is the console's, and no other (R53). -/
theorem State.writeByte_readByte (s : State) (a x : Word) (b : Byte) :
    (s.writeByte a b).readByte x = if x = a ∧ a ≠ s.cfg.consoleAddr then b else s.readByte x := by
  unfold State.writeByte State.readByte
  split
  · rename_i h; simp [h]
  · rename_i h
    simp only [Memory.read_write, ← BitVec.toNat_inj]
    simp [h, BitVec.toNat_inj]

/-- What a byte write emits (R53). -/
theorem State.writeByte_out (s : State) (a : Word) (b : Byte) :
    (s.writeByte a b).out = s.out ++ (if a = s.cfg.consoleAddr then [b] else []) := by
  unfold State.writeByte
  split <;> simp

/-- The array after a byte write (R53). -/
theorem State.writeByte_mem (s : State) (a : Word) (b : Byte) :
    (s.writeByte a b).mem = if a = s.cfg.consoleAddr then s.mem else s.mem.write a.toNat b := by
  unfold State.writeByte
  split <;> rfl

/-- A byte write keeps the canonical form of memory. -/
theorem State.writeByte_mem_wf (s : State) (a : Word) (b : Byte) (h : s.mem.wf = true) :
    (s.writeByte a b).mem.wf = true := by
  unfold State.writeByte
  split
  · exact h
  · exact Memory.wf_write h a.isLt b

/-! ## writeWord (R55) -/

@[simp] theorem State.writeWord_cfg (s : State) (a v : Word) : (s.writeWord a v).cfg = s.cfg := by
  simp [State.writeWord]
@[simp] theorem State.writeWord_regs (s : State) (a v : Word) : (s.writeWord a v).regs = s.regs := by
  simp [State.writeWord]
@[simp] theorem State.writeWord_pc (s : State) (a v : Word) : (s.writeWord a v).pc = s.pc := by
  simp [State.writeWord]
@[simp] theorem State.writeWord_sp (s : State) (a v : Word) : (s.writeWord a v).sp = s.sp := by
  simp [State.writeWord]
@[simp] theorem State.writeWord_flags (s : State) (a v : Word) : (s.writeWord a v).flags = s.flags := by
  simp [State.writeWord]
@[simp] theorem State.writeWord_halted (s : State) (a v : Word) : (s.writeWord a v).halted = s.halted := by
  simp [State.writeWord]
@[simp] theorem State.writeWord_illegal (s : State) (a v : Word) : (s.writeWord a v).illegal = s.illegal := by
  simp [State.writeWord]
@[simp] theorem State.writeWord_icount (s : State) (a v : Word) : (s.writeWord a v).icount = s.icount := by
  simp [State.writeWord]
@[simp] theorem State.writeWord_reg (s : State) (a v : Word) (j : Reg) : (s.writeWord a v).reg j = s.reg j := by
  simp [State.reg]

/-- A word's two byte addresses differ. -/
theorem word_succ_ne (a : Word) : a + 1 ≠ a := by
  intro h
  have h' := congrArg BitVec.toNat h
  have := a.isLt
  have h1 : (1 : Word).toNat = 1 := rfl
  rw [BitVec.toNat_add, h1] at h'
  omega

/-! Addresses near one another (R27, R29, R62). -/

theorem word_add_two_add_one (a : Word) : a + 2 + 1 = a + 3 := BitVec.add_assoc a 2 1

theorem word_add_two_add_two (a : Word) : a + 2 + 2 = a + 4 := BitVec.add_assoc a 2 2

theorem word_sub_two_add_one (a : Word) : a - 2 + 1 = a - 1 := by bv_omega

/-- Every byte after a word write: the two written ones, unless one is the console's, and no other (R55). -/
theorem State.writeWord_readByte (s : State) (a v x : Word) :
    (s.writeWord a v).readByte x =
      if x = s.cfg.consoleAddr then s.readByte x
      else if x = a then lowByte v else if x = a + 1 then highByte v else s.readByte x := by
  have := word_succ_ne a
  unfold State.writeWord
  simp only [State.writeByte_readByte, State.writeByte_cfg]
  by_cases hx : x = s.cfg.consoleAddr
  · have h1 : ¬ (x = a + 1 ∧ a + 1 ≠ s.cfg.consoleAddr) := by rintro ⟨rfl, h⟩; exact h hx
    have h2 : ¬ (x = a ∧ a ≠ s.cfg.consoleAddr) := by rintro ⟨rfl, h⟩; exact h hx
    rw [if_neg h1, if_neg h2, if_pos hx]
  · rw [if_neg hx]
    by_cases ha : x = a
    · subst ha
      have h1 : ¬ (x = x + 1 ∧ x + 1 ≠ s.cfg.consoleAddr) := fun h => this h.1.symm
      rw [if_neg h1, if_pos ⟨rfl, hx⟩, if_pos rfl]
    · rw [if_neg ha]
      by_cases hb : x = a + 1
      · subst hb; rw [if_pos ⟨rfl, hx⟩, if_pos rfl]
      · rw [if_neg (fun h => hb h.1), if_neg (fun h => ha h.1), if_neg hb]

/-- What a word write emits: at most the one byte that falls on the console's address (R55). -/
theorem State.writeWord_out (s : State) (a v : Word) :
    (s.writeWord a v).out = s.out ++
      (if a = s.cfg.consoleAddr then [lowByte v] else if a + 1 = s.cfg.consoleAddr then [highByte v] else []) := by
  have := word_succ_ne a
  unfold State.writeWord
  simp only [State.writeByte_out, State.writeByte_cfg, List.append_assoc]
  by_cases ha : a = s.cfg.consoleAddr
  · have h : a + 1 ≠ s.cfg.consoleAddr := fun h => this (h.trans ha.symm)
    rw [if_pos ha, if_neg h, if_pos ha, List.append_nil]
  · rw [if_neg ha, if_neg ha, List.nil_append]

/-- The array after a word write (R55): it depends on the array and the parameters alone. -/
theorem State.writeWord_mem (s : State) (a v : Word) :
    (s.writeWord a v).mem =
      if a + 1 = s.cfg.consoleAddr then s.mem.write a.toNat (lowByte v)
      else if a = s.cfg.consoleAddr then s.mem.write (a + 1).toNat (highByte v)
      else (s.mem.write a.toNat (lowByte v)).write (a + 1).toNat (highByte v) := by
  have := word_succ_ne a
  simp only [State.writeWord, State.writeByte_mem, State.writeByte_cfg]
  by_cases h1 : a + 1 = s.cfg.consoleAddr
  · rw [if_pos h1, if_neg (fun h => this (h1.trans h.symm)), if_pos h1]
  · rw [if_neg h1, if_neg h1]
    split <;> rfl

/-- A word write keeps the canonical form of memory. -/
theorem State.writeWord_mem_wf (s : State) (a v : Word) (h : s.mem.wf = true) : (s.writeWord a v).mem.wf = true :=
  State.writeByte_mem_wf _ _ _ (State.writeByte_mem_wf _ _ _ h)

/-! A word write does not read flags or `sp`. -/

theorem State.writeByte_setFlags (s : State) (a : Word) (b : Byte) (f : Flags) :
    (s.setFlags f).writeByte a b = (s.writeByte a b).setFlags f := by
  by_cases h : a = s.cfg.consoleAddr <;> simp [State.writeByte, State.setFlags, h]

theorem State.writeWord_setFlags (s : State) (a v : Word) (f : Flags) :
    (s.setFlags f).writeWord a v = (s.writeWord a v).setFlags f := by
  simp only [State.writeWord, State.writeByte_setFlags]

theorem State.writeByte_setSp (s : State) (a : Word) (b : Byte) (v : Word) :
    (s.setSp v).writeByte a b = (s.writeByte a b).setSp v := by
  by_cases h : a = s.cfg.consoleAddr <;> simp [State.writeByte, State.setSp, h]

theorem State.writeWord_setSp (s : State) (a w v : Word) :
    (s.setSp v).writeWord a w = (s.writeWord a w).setSp v := by
  simp only [State.writeWord, State.writeByte_setSp]

/-! ## pushWord (R230) -/

@[simp] theorem State.pushWord_cfg (s : State) (v : Word) : (s.pushWord v).cfg = s.cfg := by
  simp [State.pushWord]
@[simp] theorem State.pushWord_regs (s : State) (v : Word) : (s.pushWord v).regs = s.regs := by
  simp [State.pushWord]
@[simp] theorem State.pushWord_pc (s : State) (v : Word) : (s.pushWord v).pc = s.pc := by
  simp [State.pushWord]
@[simp] theorem State.pushWord_flags (s : State) (v : Word) : (s.pushWord v).flags = s.flags := by
  simp [State.pushWord]
@[simp] theorem State.pushWord_halted (s : State) (v : Word) : (s.pushWord v).halted = s.halted := by
  simp [State.pushWord]
@[simp] theorem State.pushWord_illegal (s : State) (v : Word) : (s.pushWord v).illegal = s.illegal := by
  simp [State.pushWord]
@[simp] theorem State.pushWord_icount (s : State) (v : Word) : (s.pushWord v).icount = s.icount := by
  simp [State.pushWord]
@[simp] theorem State.pushWord_reg (s : State) (v : Word) (j : Reg) : (s.pushWord v).reg j = s.reg j := by
  simp [State.reg]
@[simp] theorem State.pushWord_sp (s : State) (v : Word) : (s.pushWord v).sp = s.sp - 2 := by simp [State.pushWord]

theorem State.pushWord_readByte (s : State) (v x : Word) :
    (s.pushWord v).readByte x =
      if x = s.cfg.consoleAddr then s.readByte x
      else if x = s.sp - 2 then lowByte v else if x = s.sp - 2 + 1 then highByte v else s.readByte x :=
  State.writeWord_readByte _ _ _ _

theorem State.pushWord_out (s : State) (v : Word) :
    (s.pushWord v).out = s.out ++
      (if s.sp - 2 = s.cfg.consoleAddr then [lowByte v]
       else if s.sp - 2 + 1 = s.cfg.consoleAddr then [highByte v] else []) :=
  State.writeWord_out _ _ _

theorem State.pushWord_mem (s : State) (v : Word) :
    (s.pushWord v).mem =
      if s.sp - 2 + 1 = s.cfg.consoleAddr then s.mem.write (s.sp - 2).toNat (lowByte v)
      else if s.sp - 2 = s.cfg.consoleAddr then s.mem.write (s.sp - 2 + 1).toNat (highByte v)
      else (s.mem.write (s.sp - 2).toNat (lowByte v)).write (s.sp - 2 + 1).toNat (highByte v) :=
  State.writeWord_mem _ _ _

theorem State.pushWord_mem_wf (s : State) (v : Word) (h : s.mem.wf = true) : (s.pushWord v).mem.wf = true :=
  State.writeWord_mem_wf _ _ _ h

/-! ## branchIf (R212 to R216) -/

/-- A conditional branch writes `pc` alone. -/
theorem State.branchIf_eq (s : State) (taken : Bool) (target : Word) :
    s.branchIf taken target = s.setPc (if taken then target else s.pc + 2) := by
  cases taken <;> rfl

/-! ## Words and their bytes (R54, R57) -/

/-- The value of a word is that of its bytes, low byte first (R54). -/
theorem wordOfBytes_toNat (lo hi : Byte) : (wordOfBytes lo hi).toNat = lo.toNat + 256 * hi.toNat := by
  have h1 := lo.isLt
  simp only [wordOfBytes, BitVec.toNat_append]
  rw [Nat.shiftLeft_eq, Nat.mul_comm, ← Nat.two_pow_add_eq_or_of_lt h1]
  omega

theorem lowByte_toNat (v : Word) : (lowByte v).toNat = v.toNat % 256 := by
  simp [lowByte, BitVec.extractLsb'_toNat]

theorem highByte_toNat (v : Word) : (highByte v).toNat = v.toNat / 256 := by
  have := v.isLt
  simp only [highByte, BitVec.extractLsb'_toNat, Nat.shiftRight_eq_div_pow]
  omega

@[simp] theorem wordOfBytes_low_high (v : Word) : wordOfBytes (lowByte v) (highByte v) = v := by
  have := v.isLt
  apply BitVec.eq_of_toNat_eq
  rw [wordOfBytes_toNat, lowByte_toNat, highByte_toNat]
  omega

@[simp] theorem lowByte_wordOfBytes (lo hi : Byte) : lowByte (wordOfBytes lo hi) = lo := by
  have := lo.isLt
  apply BitVec.eq_of_toNat_eq
  rw [lowByte_toNat, wordOfBytes_toNat]
  omega

@[simp] theorem highByte_wordOfBytes (lo hi : Byte) : highByte (wordOfBytes lo hi) = hi := by
  have := lo.isLt
  apply BitVec.eq_of_toNat_eq
  rw [highByte_toNat, wordOfBytes_toNat]
  omega

end Sys2Proof.Machine
end

