-- ==== Sys2Proof/Laws/PerInstr.lean ====
section
/-! SUPPORT. Statements made per instruction. EncodedForm: an instruction's words are as many as its opcode's length
says (30_encoding.md R80, R83, R89): a base word, and an extended word exactly where the opcode is of extended form. -/

namespace Sys2Proof.Laws.EncodedForm

def Statement (i : Instr) : Prop :=
  ∀ c : BitVec 6, 2 * (i.words c).length = i.op.length ∧ (i.words c).tail = i.extendedWord.toList ∧
    i.extendedWord.isSome = i.op.isExtended

theorem mov (rd : Reg) (rs : Reg) : Statement (.mov rd rs) := fun _ => ⟨rfl, rfl, rfl⟩
theorem movi (rd : Reg) (imm7 : BitVec 7) : Statement (.movi rd imm7) := fun _ => ⟨rfl, rfl, rfl⟩
theorem loadIndirect (rd : Reg) (rs : Reg) : Statement (.loadIndirect rd rs) := fun _ => ⟨rfl, rfl, rfl⟩
theorem storeIndirect (rd : Reg) (rs : Reg) : Statement (.storeIndirect rd rs) := fun _ => ⟨rfl, rfl, rfl⟩
theorem loadDirect (rd : Reg) (addr : Word) : Statement (.loadDirect rd addr) := fun _ => ⟨rfl, rfl, rfl⟩
theorem storeDirect (rd : Reg) (addr : Word) : Statement (.storeDirect rd addr) := fun _ => ⟨rfl, rfl, rfl⟩
theorem add (rd : Reg) (rs : Reg) (rt : Reg) : Statement (.add rd rs rt) := fun _ => ⟨rfl, rfl, rfl⟩
theorem sub (rd : Reg) (rs : Reg) (rt : Reg) : Statement (.sub rd rs rt) := fun _ => ⟨rfl, rfl, rfl⟩
theorem mul (rd : Reg) (rs : Reg) (rt : Reg) : Statement (.mul rd rs rt) := fun _ => ⟨rfl, rfl, rfl⟩
theorem div (rd : Reg) (rs : Reg) (rt : Reg) : Statement (.div rd rs rt) := fun _ => ⟨rfl, rfl, rfl⟩
theorem and (rd : Reg) (rs : Reg) (rt : Reg) : Statement (.and rd rs rt) := fun _ => ⟨rfl, rfl, rfl⟩
theorem or (rd : Reg) (rs : Reg) (rt : Reg) : Statement (.or rd rs rt) := fun _ => ⟨rfl, rfl, rfl⟩
theorem xor (rd : Reg) (rs : Reg) (rt : Reg) : Statement (.xor rd rs rt) := fun _ => ⟨rfl, rfl, rfl⟩
theorem not (rd : Reg) (rs : Reg) : Statement (.not rd rs) := fun _ => ⟨rfl, rfl, rfl⟩
theorem shl (rd : Reg) (rs : Reg) (rt : Reg) : Statement (.shl rd rs rt) := fun _ => ⟨rfl, rfl, rfl⟩
theorem shr (rd : Reg) (rs : Reg) (rt : Reg) : Statement (.shr rd rs rt) := fun _ => ⟨rfl, rfl, rfl⟩
theorem cmp (rs : Reg) (rt : Reg) : Statement (.cmp rs rt) := fun _ => ⟨rfl, rfl, rfl⟩
theorem addi (rd : Reg) (rs : Reg) (imm4 : BitVec 4) : Statement (.addi rd rs imm4) := fun _ => ⟨rfl, rfl, rfl⟩
theorem subi (rd : Reg) (rs : Reg) (imm4 : BitVec 4) : Statement (.subi rd rs imm4) := fun _ => ⟨rfl, rfl, rfl⟩
theorem muli (rd : Reg) (rs : Reg) (imm4 : BitVec 4) : Statement (.muli rd rs imm4) := fun _ => ⟨rfl, rfl, rfl⟩
theorem divi (rd : Reg) (rs : Reg) (imm4 : BitVec 4) : Statement (.divi rd rs imm4) := fun _ => ⟨rfl, rfl, rfl⟩
theorem andi (rd : Reg) (rs : Reg) (imm4 : BitVec 4) : Statement (.andi rd rs imm4) := fun _ => ⟨rfl, rfl, rfl⟩
theorem ori (rd : Reg) (rs : Reg) (imm4 : BitVec 4) : Statement (.ori rd rs imm4) := fun _ => ⟨rfl, rfl, rfl⟩
theorem xori (rd : Reg) (rs : Reg) (imm4 : BitVec 4) : Statement (.xori rd rs imm4) := fun _ => ⟨rfl, rfl, rfl⟩
theorem shli (rd : Reg) (rs : Reg) (imm4 : BitVec 4) : Statement (.shli rd rs imm4) := fun _ => ⟨rfl, rfl, rfl⟩
theorem shri (rd : Reg) (rs : Reg) (imm4 : BitVec 4) : Statement (.shri rd rs imm4) := fun _ => ⟨rfl, rfl, rfl⟩
theorem cmpi (rs : Reg) (imm4 : BitVec 4) : Statement (.cmpi rs imm4) := fun _ => ⟨rfl, rfl, rfl⟩
theorem jmp (target : Word) : Statement (.jmp target) := fun _ => ⟨rfl, rfl, rfl⟩
theorem jz (target : Word) : Statement (.jz target) := fun _ => ⟨rfl, rfl, rfl⟩
theorem jnz (target : Word) : Statement (.jnz target) := fun _ => ⟨rfl, rfl, rfl⟩
theorem jc (target : Word) : Statement (.jc target) := fun _ => ⟨rfl, rfl, rfl⟩
theorem jnc (target : Word) : Statement (.jnc target) := fun _ => ⟨rfl, rfl, rfl⟩
theorem jn (target : Word) : Statement (.jn target) := fun _ => ⟨rfl, rfl, rfl⟩
theorem call (target : Word) : Statement (.call target) := fun _ => ⟨rfl, rfl, rfl⟩
theorem ret : Statement (.ret) := fun _ => ⟨rfl, rfl, rfl⟩
theorem push (rd : Reg) : Statement (.push rd) := fun _ => ⟨rfl, rfl, rfl⟩
theorem pop (rd : Reg) : Statement (.pop rd) := fun _ => ⟨rfl, rfl, rfl⟩
theorem halt : Statement (.halt) := fun _ => ⟨rfl, rfl, rfl⟩

end Sys2Proof.Laws.EncodedForm
end

