-- ==== Sys2Proof/Laws/Step.lean ====
section
/-! SUPPORT. What a step can do, said once (40_fetch_decode.md R116): every claim about steps follows from these cases
and the meaning of one instruction. -/

namespace Sys2Proof.Machine

theorem step_halted {s : State} (h : s.halted = true) : step s = .next s := by
  simp [step, h]

theorem step_running {s : State} (h : s.halted = false) {i : Instr} (hd : s.fetchDecode = .ok i) :
    step s = exec i s.beginExecute := by
  simp [step, h, hd]

theorem step_illegal {s : State} (h : s.halted = false) {e : IllegalOpcode} (hd : s.fetchDecode = .error e) :
    step s = .next (s.beginExecute.raiseIllegalOpcode e) := by
  simp [step, h, hd]

/-- The cases of a step that answers a next state. -/
theorem step_cases {s t : State} (h : step s = .next t) :
    (s.halted = true ∧ t = s) ∨
    (s.halted = false ∧ ∃ i, s.fetchDecode = .ok i ∧ exec i s.beginExecute = .next t) ∨
    (s.halted = false ∧ ∃ e, s.fetchDecode = .error e ∧ t = s.beginExecute.raiseIllegalOpcode e) := by
  rcases hh : s.halted with _ | _
  · right
    rcases hd : s.fetchDecode with e | i
    · rw [step_illegal hh hd] at h
      cases h
      exact .inr ⟨rfl, e, rfl, rfl⟩
    · rw [step_running hh hd] at h
      exact .inl ⟨rfl, i, rfl, h⟩
  · rw [step_halted hh] at h
    cases h
    exact .inl ⟨rfl, rfl⟩

/-- A run of one step and then more. -/
theorem core_run_next {s t : State} (h : step s = .next t) (k : Nat) : core.run (k + 1) s = core.run k t := by
  have h' : core.step s = .next t := h
  simp only [Host.Core.run]
  rw [h']

/-- Reset state is what a host reset gives with the parameters at their defaults (R280). -/
theorem State.hostReset_reset : State.reset.hostReset = State.reset := rfl

end Sys2Proof.Machine
end

