-- ==== Sys2Proof/Tests/Slice0.lean ====
section
/-! SUPPORT. The model's own tests, and a witness for the hypotheses and clauses of each obligation that has any.
Expected values come from spec/95_test_vectors.md (the section or example is named), or are worked out from the rule
named, never from the model. -/

namespace Sys2Proof.Tests

open Sys2Proof Sys2Proof.Machine

/-! ## Helpers -/

/-- The state after reset, about to run at 0x0010, with some registers set. -/
def holding (l : List (Reg × Word)) : State :=
  l.foldl (fun s p => s.setReg p.1 p.2) { State.reset with pc := 0x0010 }

/-- A state with other flags. -/
def flagged (s : State) (z c n o : Bool) : State := s.setFlags ⟨z, c, n, o⟩

/-- A state with other memory: every byte not listed is 0. -/
def remembering (s : State) (m : Memory) : State := { s with mem := m }

/-- What `p` says of the state after one step at the instruction with these words, placed at `pc`. -/
def ran (s : State) (base ext : Nat) (p : State → Bool) : Bool :=
  match step (s.withFetchWord 32 (base + 65536 * ext)) with
  | .next t => p t
  | .fault _ => false
  | .refused _ => false

/-- The flags as the vectors write them: `Z C N O`. -/
def zcno (f : Flags) : List Nat := [f.z.toNat, f.c.toNat, f.n.toNat, f.o.toNat]

/-- A register and the flags after one step, which must also leave `pc` past the base word. -/
def ranAlu (s : State) (w : Nat) (r : Reg) (v : Word) (f : List Nat) : Bool :=
  ran s w 0 (fun t => t.reg r == v && zcno t.flags == f && t.pc == s.pc + 2)

/-! ## WellFormed: each check refuses an ill-formed term -/

theorem test_default_map_well_formed : defaultOpcodeMap.wf = true := by decide

/-- The default map without ADD: an opcode has no value. -/
def mapWithoutAdd : OpcodeMap := defaultOpcodeMap.filter (fun p => decide (p.2 ≠ .add))

/-- MOV's value is 1 and MOVI's is 0. -/
def mapMovNotZero : OpcodeMap := [(0x01, .mov), (0x00, .movi)] ++ defaultOpcodeMap.drop 2

/-- Every value but MOV's is one higher (HALT's 0x00 aside, which becomes 0x3E). -/
def mapShifted : OpcodeMap :=
  (0x00, .mov) :: (0x3E, .halt) :: (defaultOpcodeMap.filter (fun p => decide (p.2 ≠ .mov ∧ p.2 ≠ .halt))).map
    (fun p => (p.1 + 1, p.2))

theorem test_map_missing_opcode_refused : mapWithoutAdd.wf = false := by decide
theorem test_map_mov_not_zero_refused : mapMovNotZero.wf = false := by decide
theorem test_map_value_twice_refused : OpcodeMap.wf ((0x3F, .halt) :: mapWithoutAdd ++ [(0x00, .add)]) = false := by
  decide
theorem test_map_opcode_twice_refused : OpcodeMap.wf ((0x30, .add) :: defaultOpcodeMap) = false := by decide
theorem test_shifted_map_well_formed : mapShifted.wf = true := by decide
theorem test_instr_without_code_refused : (Instr.add 0 1 2).wf mapWithoutAdd = false := by decide
theorem test_instr_with_code_accepted : (Instr.add 0 1 2).wf defaultOpcodeMap = true := by decide
theorem test_counter_without_width_refused : ({ defaultConfig with icountBits := 0 } : Config).wf = false := by decide
theorem test_default_config_accepted : defaultConfig.wf = true := by decide

/-! ## Decode: a word of every constructor, written out from R81, R82, R84 and R90 -/

/-- The instruction in a word and the word after it, under the default map. -/
def reads (w : Word) (ext : Word) (i : Instr) : Bool := decide (decodeWords defaultOpcodeMap w ext = .ok i)

/-- 95, 2.1 and 2.4. The fields are written op, rd, rs or imm7, rt. -/
theorem test_decode_data_movement :
    reads 0b000000_011_001_0000 0 (.mov 3 1) ∧ reads 0b000001_101_1111111 0 (.movi 5 0x7F) ∧
    reads 0b000010_001_010_0000 0 (.loadIndirect 1 2) ∧ reads 0b000011_000_101_1111 0 (.storeIndirect 0 5) ∧
    reads 0b000100_001_000_0000 0x8000 (.loadDirect 1 0x8000) ∧
    reads 0b000101_001_000_0000 0x0100 (.storeDirect 1 0x0100) := by decide

/-- 95, 2.3. -/
theorem test_decode_register_alu :
    reads 0b000110_010_000_0001 0 (.add 2 0 1) ∧ reads 0b000111_011_001_0010 0 (.sub 3 1 2) ∧
    reads 0b001000_100_010_0011 0 (.mul 4 2 3) ∧ reads 0b001001_101_110_0111 0 (.div 5 6 7) ∧
    reads 0b001010_001_010_0011 0 (.and 1 2 3) ∧ reads 0b001011_001_010_0011 0 (.or 1 2 3) ∧
    reads 0b001100_001_010_0011 0 (.xor 1 2 3) ∧ reads 0b001101_001_010_0000 0 (.not 1 2) ∧
    reads 0b001110_001_010_0011 0 (.shl 1 2 3) ∧ reads 0b001111_001_010_0011 0 (.shr 1 2 3) ∧
    reads 0b010000_000_001_0010 0 (.cmp 1 2) := by decide

/-- 95, 2.3. -/
theorem test_decode_immediate_alu :
    reads 0b010001_001_001_1111 0 (.addi 1 1 0xF) ∧ reads 0b010010_001_001_0001 0 (.subi 1 1 1) ∧
    reads 0b010011_010_010_0111 0 (.muli 2 2 7) ∧ reads 0b010100_010_010_0000 0 (.divi 2 2 0) ∧
    reads 0b010101_001_010_0111 0 (.andi 1 2 7) ∧ reads 0b010110_001_010_1000 0 (.ori 1 2 8) ∧
    reads 0b010111_001_010_1111 0 (.xori 1 2 0xF) ∧ reads 0b011000_000_000_0010 0 (.shli 0 0 2) ∧
    reads 0b011001_000_000_0100 0 (.shri 0 0 4) ∧ reads 0b011010_000_001_0101 0 (.cmpi 1 5) := by decide

/-- 95, 2.5 to 2.7. -/
theorem test_decode_control_stack_halt :
    reads 0b011011_000_000_0000 0x0040 (.jmp 0x40) ∧ reads 0b011100_000_000_0000 0x0040 (.jz 0x40) ∧
    reads 0b011101_000_000_0000 0x0004 (.jnz 4) ∧ reads 0b011110_000_000_0000 0x0040 (.jc 0x40) ∧
    reads 0b011111_000_000_0000 0x0040 (.jnc 0x40) ∧ reads 0b100000_000_000_0000 0x0040 (.jn 0x40) ∧
    reads 0b100001_000_000_0000 0x0020 (.call 0x20) ∧ reads 0b100010_000_000_0000 0 .ret ∧
    reads 0b100011_111_000_0000 0 (.push 7) ∧ reads 0b100100_001_000_0000 0 (.pop 1) ∧
    reads 0b111111_000_000_0000 0 .halt := by decide

/-- 95, 2.1: `rt[3]` of a register, and every field HALT does not use, are ignored. -/
theorem test_decode_ignores_unused_bits :
    reads 0x180F 0 (.add 0 0 7) ∧ reads 0x01F7 0 (.mov 3 7) ∧ reads 0xFFFF 0xFFFF .halt := by decide

/-- 95, 2.1: the first and the last illegal value. -/
theorem test_decode_rejects_illegal_by_name :
    decode defaultOpcodeMap [0x00, 0x94] = .error (.illegalOpcode 0x25) ∧
    decode defaultOpcodeMap [0x00, 0xF8, 0, 0] = .error (.illegalOpcode 0x3E) := by decide

/-- R80: an instruction of extended form needs four bytes. -/
theorem test_decode_truncated :
    decode defaultOpcodeMap [0x00, 0x6C, 0x08] = .error .truncated ∧ decode defaultOpcodeMap [0x00] = .error .truncated := by
  decide

/-- 95, E1 and E8, and P1's second and first words. -/
theorem test_encode_words :
    packRegisterForm 0x06 2 0 1 = 0x1901 ∧ packRegisterForm 0x46 10 8 0x11 = 0x1901 ∧
    packShortImmediate 0x01 0 0x3F = 0x043F ∧
    encode defaultOpcodeMap (.loadIndirect 1 2) = some [0xA0, 0x08] ∧
    encode defaultOpcodeMap (.loadDirect 1 0x8000) = some [0x80, 0x10, 0x00, 0x80] ∧
    encode defaultOpcodeMap (.movi 1 3) = some [0x83, 0x04] := by decide

/-- Every row of spec/opcode_table.json in its order: the "match" word alone, in the row's "length_bytes". -/
theorem test_table_words_decode :
    ([0x0000, 0x0400, 0x0800, 0x0C00].map (fun w => (decodeTableWord 16 w).map Instr.op)
      = [some .mov, some .movi, some .loadIndirect, some .storeIndirect]) ∧
    ([0x1000, 0x1400].map (fun w => (decodeTableWord 32 w).map Instr.op) = [some .loadDirect, some .storeDirect]) ∧
    ((List.range 21).map (fun k => (decodeTableWord 16 (0x1800 + 0x400 * k)).map Instr.op)
      = (Op.all.drop 6 |>.take 21).map some) ∧
    ((List.range 7).map (fun k => (decodeTableWord 32 (0x6C00 + 0x400 * k)).map Instr.op)
      = (Op.all.drop 27 |>.take 7).map some) ∧
    ([0x8800, 0x8C00, 0x9000, 0xFC00].map (fun w => (decodeTableWord 16 w).map Instr.op)
      = [some .ret, some .push, some .pop, some .halt]) ∧
    decodeTableWord 32 0x0100_1480 = some (.storeDirect 1 0x0100) ∧ decodeTableWord 16 0x9400 = none := by decide

/-! ## Sign extension and the host's flag view -/

/-- 95, E2. -/
theorem test_sign_extension :
    sext4 0xF = 0xFFFF ∧ sext4 0x7 = 0x0007 ∧ sext4 0x8 = 0xFFF8 ∧ sext4 0x0 = 0x0000 ∧ sext7 0x7F = 0xFFFF ∧
    sext7 0x40 = 0xFFC0 ∧ sext7 0x3F = 0x003F ∧ sext7 0x00 = 0x0000 := by decide

/-- R31, decision D7: bits 0, 1, 2 and 3 are Z, C, N and O. -/
theorem test_packed_flags :
    Flags.packed ⟨true, false, false, false⟩ = 1 ∧ Flags.packed ⟨false, true, false, false⟩ = 2 ∧
    Flags.packed ⟨false, false, true, false⟩ = 4 ∧ Flags.packed ⟨false, false, false, true⟩ = 8 := by decide

/-! ## Assembly -/

/-- 95, E6 and E8; R98, R99. -/
theorem test_assemble_lines :
    AsmLine.assemble ⟨.MOVI, [.reg 0, .value 63]⟩ = some (.movi 0 0x3F) ∧
    AsmLine.assemble ⟨.MOVI, [.reg 0, .value 100]⟩ = none ∧
    AsmLine.assemble ⟨.MOVI, [.reg 0, .value (-65)]⟩ = none ∧
    AsmLine.assemble ⟨.LOAD, [.reg 1, .indirect 2]⟩ = some (.loadIndirect 1 2) ∧
    AsmLine.assemble ⟨.LOAD, [.reg 1, .value 0x8000]⟩ = some (.loadDirect 1 0x8000) ∧
    AsmLine.assemble ⟨.ADDI, [.reg 1, .reg 1, .value 8]⟩ = none ∧
    AsmLine.assemble ⟨.JMP, [.value 65536]⟩ = none ∧ AsmLine.assemble ⟨.NOP, []⟩ = some (.mov 0 0) := by decide

/-- 95, E9 and P1: the image of the end-to-end program, with a comment, a blank line and a label that nothing uses. -/
theorem test_assemble_text :
    assembleText defaultOpcodeMap
      "start: MOVI R0,5 ; five\n\n  MOVI R1, 0b11\n ADD R2 , R0, R1\nHALT".toList
      = some [0x05, 0x04, 0x83, 0x04, 0x01, 0x19, 0x00, 0xFC] := by decide

/-- 95, E7: a forward reference and a backward one to the same label. -/
theorem test_assemble_references :
    assembleText defaultOpcodeMap "JMP end\nMOVI R0, 1\nMOVI R1, 2\nend: HALT\nJMP end".toList
      = some [0x00, 0x6C, 0x08, 0x00, 0x01, 0x04, 0x82, 0x04, 0x00, 0xFC, 0x00, 0x6C, 0x08, 0x00] := by decide

/-- 95, E8 and E6; R96, R97: errors. -/
theorem test_assemble_text_forms_and_errors :
    assembleText defaultOpcodeMap "LOAD R1, [R2]\nLOAD R1, 0x8000\nMOVI R0, -64".toList
      = some [0xA0, 0x08, 0x80, 0x10, 0x00, 0x80, 0x40, 0x04] ∧
    assembleText defaultOpcodeMap "MOVI R0, 100".toList = none ∧
    assembleText defaultOpcodeMap "a: NOP\na: NOP".toList = none ∧
    assembleText defaultOpcodeMap "FOO R1".toList = none ∧ assembleText defaultOpcodeMap "JMP nowhere".toList = none ∧
    assembleText defaultOpcodeMap "MOV R8, R1".toList = none := by decide

/-- R97, and the choices of log 23: a label at the end of the text, and one past the address space. -/
theorem test_labels_at_the_ends :
    assembleText defaultOpcodeMap "JMP end\nend:".toList = some [0x00, 0x6C, 0x04, 0x00] ∧
    labelValues 65534 [⟨some "a".toList, some ⟨.NOP, []⟩⟩, ⟨some "b".toList, none⟩]
      = [("a".toList, 65534), ("b".toList, 65536)] ∧
    asmWord 65535 = some 0xFFFF ∧ asmWord 65536 = none := by decide

/-- R97: the three bases, and digits at the ends of each; a digit outside its base is none. -/
theorem test_literals :
    literalValue "0x09aF".toList = some 0x9AF ∧ literalValue "0b101".toList = some 5 ∧
    literalValue "-64".toList = some (-64) ∧ literalValue "65535".toList = some 65535 ∧
    literalValue "0b12".toList = none ∧ literalValue "1A".toList = none ∧ literalValue "0xG".toList = none ∧
    literalValue "-".toList = none := by decide

/-- R97, and the choices of log 22: the registers R0 and R7, and what is no register. -/
theorem test_register_names :
    registerName "R0".toList = some 0 ∧ registerName "R7".toList = some 7 ∧ registerName "R8".toList = none ∧
    registerName "Ra".toList = none ∧ readOperand "r1".toList = some (.symbol "r1".toList) ∧
    readOperand "[ R2 ]".toList = some (.indirect 2) ∧ readOperand "[R2".toList = none := by decide

/-! ## Memory (95, 2.8) -/

theorem test_word_wraps_at_the_top :
    let s := State.reset.writeWord 0xFFFF 0xABCD
    s.mem = [(0x0000, 0xAB), (0xFFFF, 0xCD)] ∧ s.readWord 0xFFFF = 0xABCD := by decide

theorem test_console_high_byte :
    let s := State.reset.writeWord 0xEFFF 0x4142
    s.mem = [(0xEFFF, 0x42)] ∧ s.out = [0x41] := by decide

theorem test_console_low_byte :
    let s := State.reset.writeWord 0xF000 0x1148
    s.mem = [(0xF001, 0x11)] ∧ s.out = [0x48] ∧ s.readWord 0xF000 = 0x1100 := by decide

theorem test_console_read_has_no_effect :
    (remembering State.reset [(0xF000, 0x5A)]).readByte 0xF000 = 0x5A := by decide

/-- Writing what an unlisted byte reads as removes the entry, so equal memories are equal data. -/
theorem test_write_of_zero_removes_entry :
    Memory.write [(1, 5), (2, 6), (3, 7)] 2 0 = [(1, 5), (3, 7)] ∧ Memory.wf [(2, 6), (1, 5)] = false ∧
    Memory.wf [(1, 0)] = false ∧ Memory.wf [(65536, 1)] = false ∧ Memory.wf [(1, 5), (65535, 7)] = true := by decide

/-! ## Data movement (95, 2.4) -/

theorem test_mov : ran (flagged (holding [(1, 0xBEEF)]) true false true true) 0x0190 0
    (fun t => t.reg 3 == 0xBEEF && t.reg 1 == 0xBEEF && zcno t.flags == [1, 0, 1, 1]) = true := by decide

theorem test_nop : step ((holding [(2, 7)]).withFetchWord 16 0x0120)
    = .next { (holding [(2, 7)]).withFetchWord 16 0x0120 with pc := 0x0012, icount := 1 } := rfl

theorem test_movi : ran (holding []) 0x06FF 0 (fun t => t.reg 5 == 0xFFFF) = true := by decide

theorem test_movi_lowest : ran (holding []) 0x0440 0 (fun t => t.reg 0 == 0xFFC0) = true := by decide

theorem test_load_indirect_into_its_address_register :
    ran (remembering (holding [(3, 0x0100)]) [(0x0100, 0x34), (0x0101, 0x12)]) 0x09B0 0
      (fun t => t.reg 3 == 0x1234) = true := by decide

theorem test_load_indirect_wraps :
    ran (remembering (holding [(2, 0xFFFF)]) [(0x0000, 0xAB), (0xFFFF, 0xCD)]) 0x08A0 0
      (fun t => t.reg 1 == 0xABCD) = true := by decide

theorem test_store_indirect : ran (holding [(1, 0xABCD), (2, 0xFFFF)]) 0x0CA0 0
    (fun t => t.readByte 0xFFFF == 0xCD && t.readByte 0x0000 == 0xAB) = true := by decide

theorem test_store_indirect_to_console : ran (holding [(1, 0x4142), (2, 0xEFFF)]) 0x0CA0 0
    (fun t => t.readByte 0xEFFF == 0x42 && t.readByte 0xF000 == 0 && t.out == [0x41]) = true := by decide

theorem test_load_direct : ran (remembering (holding []) [(0x8000, 0xCD), (0x8001, 0xAB)]) 0x1080 0x8000
    (fun t => t.reg 1 == 0xABCD && t.pc == 0x0014) = true := by decide

theorem test_store_direct : ran (holding [(1, 0x1234)]) 0x1480 0x0100
    (fun t => t.readByte 0x0100 == 0x34 && t.readByte 0x0101 == 0x12 && t.pc == 0x0014) = true := by decide

theorem test_store_direct_over_its_own_address : ran (holding [(1, 0x0200)]) 0x1480 0x0012
    (fun t => t.readByte 0x0012 == 0x00 && t.readByte 0x0013 == 0x02 && t.pc == 0x0014) = true := by decide

/-! ## Arithmetic and logic (95, 2.3 and 2.2) -/

theorem test_add : ranAlu (holding [(0, 0x7FFF), (1, 0x0001)]) 0x1901 2 0x8000 [0, 0, 1, 1] = true := by decide
theorem test_add_same_register : ranAlu (holding [(1, 0x8000)]) 0x1891 1 0x0000 [1, 1, 0, 1] = true := by decide
theorem test_sub : ranAlu (holding [(1, 0x0000), (2, 0x0001)]) 0x1D92 3 0xFFFF [0, 1, 1, 0] = true := by decide
theorem test_sub_overflow : ranAlu (holding [(1, 0x8000), (2, 0x0001)]) 0x1D92 3 0x7FFF [0, 0, 0, 1] = true := by
  decide
theorem test_mul : ranAlu (holding [(2, 0x0100), (3, 0x0100)]) 0x2223 4 0x0000 [1, 1, 0, 0] = true := by decide
theorem test_mul_fits : ranAlu (holding [(2, 0x00FF), (3, 0x0101)]) 0x2223 4 0xFFFF [0, 0, 1, 0] = true := by decide
theorem test_div_by_zero : ranAlu (holding [(6, 0x1234)]) 0x26E7 5 0xFFFF [0, 0, 1, 1] = true := by decide
theorem test_div_by_zero_without_n :
    ranAlu { holding [(6, 0x1234)] with cfg := { defaultConfig with div0N := false } } 0x26E7 5 0xFFFF [0, 0, 0, 1]
      = true := by decide
theorem test_and : ranAlu (holding [(2, 0xF0F0), (3, 0x0FF0)]) 0x28A3 1 0x00F0 [0, 0, 0, 0] = true := by decide
theorem test_or : ranAlu (holding [(2, 0xF0F0), (3, 0x0FF0)]) 0x2CA3 1 0xFFF0 [0, 0, 1, 0] = true := by decide
theorem test_xor : ranAlu (flagged (holding [(1, 0x5A5A)]) false true true true) 0x3091 1 0x0000 [1, 0, 0, 0] = true := by
  decide
theorem test_not : ranAlu (holding [(2, 0x7FFF)]) 0x34A0 1 0x8000 [0, 0, 1, 0] = true := by decide
theorem test_shl : ranAlu (holding [(2, 0x8001), (3, 0x0001)]) 0x38A3 1 0x0002 [0, 1, 0, 0] = true := by decide
theorem test_shl_by_16 : ranAlu (holding [(2, 0x0001), (3, 0x0010)]) 0x38A3 1 0x0000 [1, 1, 0, 0] = true := by decide
theorem test_shr : ranAlu (holding [(2, 0x8001), (3, 0x0001)]) 0x3CA3 1 0x4000 [0, 1, 0, 0] = true := by decide
theorem test_shr_by_17 : ranAlu (holding [(2, 0x8000), (3, 0x0011)]) 0x3CA3 1 0x0000 [1, 0, 0, 0] = true := by decide
theorem test_cmp : ranAlu (holding [(1, 0x0003), (2, 0x0005)]) 0x4012 1 0x0003 [0, 1, 1, 0] = true := by decide
theorem test_addi : ranAlu (holding [(1, 0x0001)]) 0x449F 1 0x0000 [1, 1, 0, 0] = true := by decide
theorem test_subi : ranAlu (holding [(1, 0x0005)]) 0x489F 1 0x0006 [0, 1, 0, 0] = true := by decide
theorem test_muli : ranAlu (holding [(2, 0x0002)]) 0x4D2F 2 0xFFFE [0, 1, 1, 0] = true := by decide
theorem test_divi_by_zero : ranAlu (holding [(2, 0x0042)]) 0x5120 2 0xFFFF [0, 0, 1, 1] = true := by decide
theorem test_divi : ranAlu (holding [(2, 0xFFFF)]) 0x512F 2 0x0001 [0, 0, 0, 0] = true := by decide
theorem test_andi : ranAlu (holding [(2, 0x1235)]) 0x54A7 1 0x0005 [0, 0, 0, 0] = true := by decide
theorem test_ori : ranAlu (holding [(2, 0x0001)]) 0x58A8 1 0xFFF9 [0, 0, 1, 0] = true := by decide
theorem test_xori : ranAlu (holding [(2, 0x00FF)]) 0x5CAF 1 0xFF00 [0, 0, 1, 0] = true := by decide
theorem test_shli : ranAlu (holding [(0, 0x0007)]) 0x6002 0 0x001C [0, 0, 0, 0] = true := by decide
theorem test_shli_negative_amount : ranAlu (holding [(0, 0xFFFF)]) 0x6008 0 0x0000 [1, 0, 0, 0] = true := by decide
theorem test_shri : ranAlu (holding [(0, 0x0018)]) 0x6404 0 0x0001 [0, 1, 0, 0] = true := by decide
theorem test_cmpi : ranAlu (holding [(1, 0x0000)]) 0x681F 1 0x0000 [0, 1, 0, 0] = true := by decide

/-- The shift carries at the amounts 0, 15, 16 and 17 under `last_out`, and at 16 under `msb_lsb` (2.2). -/
theorem test_shift_carry_boundaries :
    [0, 15, 16, 17].map (shlCarry .lastOut 0x0001) = [false, false, true, false] ∧
    [0, 15, 16, 17].map (shrCarry .lastOut 0x8000) = [false, false, true, false] ∧
    [0x0001, 0x8000].map (shlCarry .msbLsb · 16) = [false, true] ∧
    [0x8000, 0x0001].map (shrCarry .msbLsb · 16) = [false, true] := by decide

/-! ## Control transfer (95, 2.5), stack (2.6), halt and the step (2.7) -/

theorem test_jmp_odd : ran (holding []) 0x6C00 0x0041 (fun t => t.pc == 0x0041) = true := by decide
theorem test_jz_taken : ran (flagged (holding []) true false false false) 0x7000 0x0040 (fun t => t.pc == 0x0040)
    = true := by decide
theorem test_jz_not_taken_wraps : ran { holding [] with pc := 0xFFFC } 0x7000 0x0040 (fun t => t.pc == 0x0000)
    = true := by decide
theorem test_jnz : ran (holding []) 0x7400 0x0004 (fun t => t.pc == 0x0004) = true := by decide
theorem test_jnz_not_taken : ran (flagged (holding []) true false false false) 0x7400 0x0004
    (fun t => t.pc == 0x0014) = true := by decide
theorem test_jc : ran (flagged (holding []) false true false false) 0x7800 0x0040 (fun t => t.pc == 0x0040)
    = true := by decide
theorem test_jc_not_taken : ran (flagged (holding []) true false true true) 0x7800 0x0040 (fun t => t.pc == 0x0014)
    = true := by decide
theorem test_jnc : ran (flagged (holding []) true false true true) 0x7C00 0x0040 (fun t => t.pc == 0x0040)
    = true := by decide
theorem test_jnc_not_taken : ran (flagged (holding []) false true false false) 0x7C00 0x0040
    (fun t => t.pc == 0x0014) = true := by decide
theorem test_jn : ran (flagged (holding []) false false true false) 0x8000 0x0040 (fun t => t.pc == 0x0040)
    = true := by decide
theorem test_jn_ignores_overflow : ran (flagged (holding []) false false false true) 0x8000 0x0040
    (fun t => t.pc == 0x0014) = true := by decide
theorem test_call : ran { holding [] with pc := 0x0006 } 0x8400 0x0020
    (fun t => t.sp == 0xFFFC && t.readByte 0xFFFC == 0x0A && t.readByte 0xFFFD == 0 && t.pc == 0x0020)
    = true := by decide
theorem test_call_wraps : ran { holding [] with pc := 0x0006, sp := 0x0001 } 0x8400 0x0020
    (fun t => t.sp == 0xFFFF && t.readByte 0xFFFF == 0x0A && t.readByte 0x0000 == 0 && t.pc == 0x0020)
    = true := by decide
theorem test_ret : ran (remembering { holding [] with sp := 0xFFFC } [(0xFFFC, 0x0A)]) 0x8800 0
    (fun t => t.pc == 0x000A && t.sp == 0xFFFE) = true := by decide
theorem test_ret_empty_stack : ran (holding []) 0x8800 0 (fun t => t.pc == 0x0000 && t.sp == 0x0000) = true := by
  decide
theorem test_push : ran { holding [(7, 0xBEEF)] with sp := 0x0000 } 0x8F80 0
    (fun t => t.sp == 0xFFFE && t.readByte 0xFFFE == 0xEF && t.readByte 0xFFFF == 0xBE) = true := by decide
theorem test_push_to_console : ran { holding [(0, 0x1234)] with sp := 0xF002 } 0x8C00 0
    (fun t => t.sp == 0xF000 && t.out == [0x34] && t.readByte 0xF000 == 0 && t.readByte 0xF001 == 0x12) = true := by
  decide
theorem test_pop : ran (remembering { holding [] with sp := 0xFFFC } [(0xFFFC, 0x34), (0xFFFD, 0x12)]) 0x9080 0
    (fun t => t.reg 1 == 0x1234 && t.sp == 0xFFFE && t.readByte 0xFFFC == 0x34) = true := by decide
theorem test_pop_wraps : ran (remembering { holding [] with sp := 0xFFFF } [(0x0000, 0x56), (0xFFFF, 0x78)]) 0x9080 0
    (fun t => t.reg 1 == 0x5678 && t.sp == 0x0001) = true := by decide
theorem test_halt : ran { holding [] with pc := 0x0006, icount := 41 } 0xFFFF 0
    (fun t => t.halted && !t.illegal && t.pc == 0x0008 && t.icount == 42) = true := by decide
theorem test_illegal_opcode : ran (flagged { holding [] with pc := 0x0006, icount := 41 } true false true false) 0x9400 0
    (fun t => t.halted && t.illegal && t.pc == 0x0008 && t.icount == 42 && zcno t.flags == [1, 0, 1, 0]
      && t.illegalReport == some (⟨0x25⟩, 0x9400)) = true := by decide

/-- 95, 2.7: the fetch at an odd pc, and at the last word of memory. -/
theorem test_fetch_odd_and_last :
    ran { holding [] with pc := 0x0003 } 0x0405 0 (fun t => t.reg 0 == 5 && t.pc == 0x0005) = true ∧
    ran { holding [] with pc := 0xFFFE } 0x0405 0 (fun t => t.reg 0 == 5 && t.pc == 0x0000) = true ∧
    ran { holding [] with pc := 0xFFFF } 0x0405 0 (fun t => t.reg 0 == 5 && t.pc == 0x0001) = true := by decide

/-- R36: a one-bit counter wraps. -/
theorem test_icount_wraps :
    ran { holding [] with cfg := { defaultConfig with icountBits := 1 }, icount := 1 } 0 0 (fun t => t.icount == 0)
      = true := by decide

/-- 95, 2.7: loads that do not fit, that fit exactly, and that cover the console's address. -/
theorem test_host_load :
    State.reset.hostLoad 0xFFF0 (List.replicate 17 1) = none ∧
    ((State.reset.hostLoad 0xFFF0 (List.replicate 16 1)).map (fun t => t.readByte 0xFFFF)) = some 1 ∧
    ((State.reset.hostLoad 0xF000 [0x5A]).map (fun t => (t.readByte 0xF000, t.out))) = some (0x5A, []) := by decide

/-- 95, 2.7, reset: of a state halted by an illegal opcode. -/
theorem test_host_reset :
    ({ holding [(4, 9)] with halted := true, illegal := true, sp := 4, icount := 3, mem := [(7, 7)], out := [1] }
      : State).hostReset = { State.reset with mem := [(7, 7)], out := [1] } := rfl

/-! ## Witnesses: the hypotheses of each obligation are met together, and each clause's case occurs -/

/-- A running state at `ADD R2, R0, R1` (0x1901), the addition of E3. -/
def atAdd : State := (holding [(0, 0x7FFF), (1, 0x0001)]).withFetchWord 16 0x1901

/-- A running state at the illegal word 0x9400. -/
def atIllegal : State := (holding [(3, 9)]).withFetchWord 16 0x9400

/-- A running state at `HALT`. -/
def atHalt : State := (holding []).withFetchWord 16 0xFC00

/-- A running state at `JMP 0x0041`. -/
def atJmp : State := (holding []).withFetchWord 32 0x00416C00

/-- A running state at `STORE R1, [R2]` with its word's high byte on the console's address. -/
def atConsoleStore : State := (holding [(1, 0x4142), (2, 0xEFFF)]).withFetchWord 16 0x0CA0

/-- A halted state. -/
def haltedState : State := { holding [(1, 4)] with halted := true }

/-- That a state has a next state, `p` of it. -/
def HasNext (o : Host.Outcome State Fault Refusal) (p : State → Prop) : Prop := ∃ t, o = .next t ∧ p t

theorem test_witness_DecodeOfEncodeIsTheInstruction :
    defaultOpcodeMap.wf = true ∧ mapShifted.wf = true ∧
    encode mapShifted (.jn 0x1234) = some [0x00, 0x84, 0x34, 0x12] := by decide

theorem test_witness_UnusedBitsAreIgnored :
    (defaultOpcodeMap.lookup (opField 0x01F0) = some .mov ∧ (0x01F0 : Word) &&& usedBits .mov = 0x01F7 &&& usedBits .mov) ∧
    (defaultOpcodeMap.lookup (opField 0x6C00) = some .jmp ∧ Op.jmp ∈ fourByteOps ∧
      (0x6C00 : Word) &&& usedBits .jmp = 0x6FFF &&& usedBits .jmp) := by decide

theorem test_witness_LengthFollowsFromOpcodeAlone :
    defaultOpcodeMap.lookup 0x1B = some .jmp ∧ Op.jmp ∈ fourByteOps ∧ defaultOpcodeMap.lookup 0x22 = some .ret ∧
    Op.ret ∉ fourByteOps ∧ defaultOpcodeMap.lookup 0x25 = none ∧
    decode defaultOpcodeMap [0x00, 0x6C, 0x08, 0x00, 0x55] = .ok (.jmp 8, [0x55]) ∧
    decode defaultOpcodeMap [0x00, 0x88, 0x08] = .ok (.ret, [0x08]) := by decide

theorem test_witness_LineSizesAgreeWithEncoding :
    AsmStatement.assemble [("x".toList, 0x8000)] ⟨.LOAD, [.reg 1, .symbol "x".toList]⟩ = some (.loadDirect 1 0x8000) ∧
    AsmStatement.assemble [] ⟨.LOAD, [.reg 1, .indirect 2]⟩ = some (.loadIndirect 1 2) ∧
    defaultOpcodeMap.wf = true := by decide

theorem test_witness_StepRunsDecodedInstruction :
    (atAdd.halted = false ∧ decode atAdd.cfg.opcodeMap atAdd.bytesAtPc = .ok (.add 2 0 1, [0, 0])) ∧
    (atJmp.halted = false ∧ decode atJmp.cfg.opcodeMap atJmp.bytesAtPc = .ok (.jmp 0x41, [])) := by decide

theorem test_witness_HaltedStepsChangeNothing : haltedState.halted = true := by decide

theorem test_witness_IllegalOpcodeHaltsWithReport :
    atIllegal.halted = false ∧ decode atIllegal.cfg.opcodeMap atIllegal.bytesAtPc = .error (.illegalOpcode 0x25) := by
  decide

theorem test_witness_StepAlwaysAnswersAndOnlyIllegalOpcodeMarks :
    (atIllegal.illegal = false ∧ HasNext (step atIllegal) (fun t => t.illegal = true)) ∧
    (atAdd.illegal = false ∧ HasNext (step atAdd) (fun t => t.illegal = false)) :=
  ⟨⟨rfl, _, rfl, rfl⟩, rfl, _, rfl, rfl⟩

theorem test_witness_StepKeepsInvariant :
    (atConsoleStore.Inv ∧ HasNext (step atConsoleStore) (fun t => t.mem ≠ atConsoleStore.mem)) ∧
    (atIllegal.Inv ∧ HasNext (step atIllegal) (fun t => t.illegal = true)) :=
  ⟨⟨by decide, _, rfl, by decide⟩, by decide, _, rfl, rfl⟩

theorem test_witness_ConsoleByteIsNeverStoredTo :
    HasNext (step atConsoleStore) (fun t => t.out = atConsoleStore.out ++ [0x41]) ∧
    HasNext (step atAdd) (fun t => t.out = atAdd.out) := ⟨⟨_, rfl, by decide⟩, _, rfl, by decide⟩

/-- The state `atConsoleStore` as a program cannot tell it apart from itself. -/
def atConsoleStoreTwin : State :=
  { atConsoleStore with flags := ⟨false, false, false, true⟩, illegal := true, icount := 77, out := [9] }

theorem test_witness_HostOnlyStateIsUnobservable :
    SameToProgram atConsoleStore atConsoleStoreTwin ∧ atConsoleStore ≠ atConsoleStoreTwin ∧
    HasNext (step atConsoleStore) (fun t => t.out = [] ++ [0x41]) ∧
    HasNext (step atConsoleStoreTwin) (fun t => t.out = [9] ++ [0x41]) :=
  ⟨⟨rfl, rfl, rfl, rfl, rfl, rfl, rfl, rfl, rfl⟩, by decide, ⟨_, rfl, by decide⟩, _, rfl, by decide⟩

theorem test_witness_RunningStepCountsOne :
    atAdd.halted = false ∧ HasNext (step atAdd) (fun t => t.icount = 1) ∧
    atIllegal.halted = false ∧ HasNext (step atIllegal) (fun t => t.icount = 1) :=
  ⟨rfl, ⟨_, rfl, rfl⟩, rfl, _, rfl, rfl⟩

theorem test_witness_HaltedIsSetByHaltAndIllegalOpcodeOnly :
    (atHalt.halted = false ∧ HasNext (step atHalt) (fun t => t.halted = true) ∧
      decode atHalt.cfg.opcodeMap atHalt.bytesAtPc = .ok (.halt, [0, 0])) ∧
    (atIllegal.halted = false ∧ HasNext (step atIllegal) (fun t => t.halted = true)) ∧
    (atAdd.halted = false ∧ HasNext (step atAdd) (fun t => t.halted = false)) ∧
    (haltedState.halted = true ∧ HasNext (step haltedState) (fun t => t = haltedState)) :=
  ⟨⟨rfl, ⟨_, rfl, rfl⟩, by decide⟩, ⟨rfl, _, rfl, rfl⟩, ⟨rfl, _, rfl, rfl⟩, rfl, _, rfl, rfl⟩

theorem test_witness_FlagsAreReplacedByAluInstructionsOnly :
    ((Instr.mov 1 2).op ∉ aluOps ∧ HasNext (exec (.mov 1 2) atAdd) (fun t => t.flags = atAdd.flags)) ∧
    ((Instr.add 2 0 1).op ∈ aluOps ∧ HasNext (exec (.add 2 0 1) atAdd) (fun t => t.flags ≠ atAdd.flags)) :=
  ⟨⟨by decide, _, rfl, rfl⟩, by decide, _, rfl, by decide⟩

theorem test_witness_FlagsAreReadByConditionalBranchesOnly :
    ((flagged atJmp true false false false).flags.z = true ∧
      HasNext (exec (.jz 0x40) (flagged atJmp true false false false)) (fun t => t.pc = 0x40)) ∧
    (¬ atJmp.flags.z = true ∧ HasNext (exec (.jz 0x40) atJmp) (fun t => t.pc = 0x12)) ∧
    (Instr.push 1).op ∉ conditionalOps ∧ HasNext (exec (.push 1) atJmp) (fun t => t.sp = 0xFFFC) :=
  ⟨⟨rfl, _, rfl, by decide⟩, ⟨by decide, _, rfl, by decide⟩, by decide, _, rfl, by decide⟩

theorem test_witness_OnlyTheDestinationRegisterIsWritten :
    HasNext (exec (.add 2 0 1) atAdd) (fun t => t.reg 2 = 0x8000) ∧ destination (.add 2 0 1) ≠ some 1 ∧
    HasNext (exec (.cmp 0 1) atAdd) (fun t => t.reg 0 = 0x7FFF) ∧ destination (.cmp 0 1) ≠ some 0 :=
  ⟨⟨_, rfl, by decide⟩, by decide, ⟨_, rfl, by decide⟩, by decide⟩

/-- A running state at `LOAD R1, 0x8000`. -/
def atLoadDirect : State := (holding []).withFetchWord 32 0x80001080

theorem test_witness_PcAdvancesByLengthElsewhere :
    (atAdd.halted = false ∧ decode atAdd.cfg.opcodeMap atAdd.bytesAtPc = .ok (.add 2 0 1, [0, 0]) ∧
      (Instr.add 2 0 1).op ∉ controlTransferOps ∧ HasNext (step atAdd) (fun t => t.pc = 0x12)) ∧
    (atLoadDirect.halted = false ∧
      decode atLoadDirect.cfg.opcodeMap atLoadDirect.bytesAtPc = .ok (.loadDirect 1 0x8000, []) ∧
      (Instr.loadDirect 1 0x8000).op ∉ controlTransferOps ∧ HasNext (step atLoadDirect) (fun t => t.pc = 0x14)) :=
  ⟨⟨rfl, by decide, by decide, _, rfl, by decide⟩, rfl, by decide, by decide, _, rfl, by decide⟩

theorem test_witness_OnlyStackInstructionsUseSp :
    (Instr.add 2 0 1).op ∉ stackOps ∧ HasNext (exec (.add 2 0 1) atAdd) (fun t => t.sp = 0xFFFE) :=
  ⟨by decide, _, rfl, by decide⟩

theorem test_witness_MemoryChangesOnlyWhereStored :
    (HasNext (exec (.storeIndirect 1 2) atConsoleStore) (fun t => t.readByte 0x0010 = 0xA0) ∧
      storeAddress atConsoleStore (.storeIndirect 1 2) = some 0xEFFF ∧ (0x0010 : Word) ≠ 0xEFFF ∧
      (0x0010 : Word) ≠ 0xEFFF + 1) ∧
    (HasNext (exec (.add 2 0 1) atAdd) (fun t => t.readByte 0x0010 = 0x01) ∧
      storeAddress atAdd (.add 2 0 1) = none) :=
  ⟨⟨⟨_, rfl, by decide⟩, by decide, by decide, by decide⟩, ⟨_, rfl, by decide⟩, by decide⟩

/-- A halted state whose memory holds P1's image. -/
def haltedWithImage : State :=
  { haltedState with
    mem := [(0, 0x05), (1, 0x04), (2, 0x83), (3, 0x04), (4, 0x01), (5, 0x19), (7, 0xFC)] }

theorem test_witness_HostResetRestartsAtZero :
    decode haltedWithImage.cfg.opcodeMap
      [haltedWithImage.readByte 0, haltedWithImage.readByte 1, haltedWithImage.readByte 2, haltedWithImage.readByte 3]
      = .ok (.movi 0 5, [0x83, 0x04]) := by decide

theorem test_witness_HostLoadCopiesTheImageOrFails :
    65536 < (0xFFFF : Word).toNat + [0x5A, 0x5B].length ∧ (0xFFFF : Word).toNat + [0x5A].length ≤ 65536 ∧
    State.reset.mem.wf = true := by decide

theorem test_witness_RunEndsAtTheFirstHaltedState :
    State.hostRun 1 atHalt = some { atHalt with pc := 0x12, icount := 1, halted := true } ∧
    State.hostRun 0 haltedState = some haltedState ∧ State.hostRun 0 atHalt = none := ⟨rfl, rfl, rfl⟩

theorem test_witness_MovCopiesOrDoesNothing :
    exec (.mov 2 2) atAdd = .next atAdd ∧ HasNext (exec (.mov 2 0) atAdd) (fun t => t.reg 2 = 0x7FFF) :=
  ⟨rfl, _, rfl, by decide⟩

/-- Stored words at the console's address, just below it and away from it. -/
theorem test_witness_StoresWriteTheWord :
    (holding [(2, 0xF000)]).reg 2 = State.reset.cfg.consoleAddr ∧
    (holding [(2, 0xEFFF)]).reg 2 + 1 = State.reset.cfg.consoleAddr ∧
    (holding [(2, 0xF001)]).reg 2 ≠ State.reset.cfg.consoleAddr ∧
    (holding [(2, 0xF001)]).reg 2 + 1 ≠ State.reset.cfg.consoleAddr := by decide

/-- What the hypotheses of StoredCodeIsFetchedNext ask of an instruction, and where its word lies next. -/
def StoresCode (i : Instr) (s : State) (a v : Word) (p : State → Prop) : Prop :=
  storeAddress s i = some a ∧ storedWord s i = some v ∧ a ≠ s.cfg.consoleAddr ∧ a + 1 ≠ s.cfg.consoleAddr ∧
    HasNext (exec i s) p

/-- Each storing instruction, its word at the next `pc`; and a STORE of the next instruction's extended word. -/
theorem test_witness_StoredCodeIsFetchedNext :
    StoresCode (.storeIndirect 1 2) (holding [(1, 0x1901), (2, 0x0010)]) 0x0010 0x1901 (fun t => t.pc = 0x0010) ∧
    StoresCode (.storeDirect 1 0x0012) (holding [(1, 0x1901)]) 0x0012 0x1901 (fun t => t.pc = 0x0012) ∧
    StoresCode (.push 1) { holding [(1, 0x1901)] with sp := 0x0012 } 0x0010 0x1901 (fun t => t.pc = 0x0010) ∧
    StoresCode (.call 0x0040) { holding [] with sp := 0x0042 } 0x0040 0x0012 (fun t => t.pc = 0x0040) ∧
    StoresCode (.storeIndirect 1 2) (holding [(1, 0x1901), (2, 0x0012)]) 0x0012 0x1901 (fun t => t.pc + 2 = 0x0012) :=
  ⟨⟨rfl, rfl, by decide, by decide, _, rfl, rfl⟩, ⟨rfl, rfl, by decide, by decide, _, rfl, rfl⟩,
    ⟨rfl, rfl, by decide, by decide, _, rfl, rfl⟩, ⟨rfl, rfl, by decide, by decide, _, rfl, rfl⟩,
    rfl, rfl, by decide, by decide, _, rfl, rfl⟩

/-- Overflow set and clear, for the sum and for the difference (2.2). -/
theorem test_witness_OverflowIsSignedOverflow :
    (HasNext (exec (.add 2 0 1) atAdd) (fun t => t.flags.o = true) ∧
      HasNext (exec (.sub 2 0 1) atAdd) (fun u => u.flags.o = false)) ∧
    (HasNext (exec (.add 2 0 1) (holding [(0, 0x8000), (1, 0x0001)])) (fun t => t.flags.o = false) ∧
      HasNext (exec (.sub 2 0 1) (holding [(0, 0x8000), (1, 0x0001)])) (fun u => u.flags.o = true)) :=
  ⟨⟨⟨_, rfl, by decide⟩, _, rfl, by decide⟩, ⟨_, rfl, by decide⟩, _, rfl, by decide⟩

/-- Both cases of the division, register form and immediate form. -/
theorem test_witness_DivWritesQuotientOrSentinel :
    (atAdd.reg 2).toNat = 0 ∧ (atAdd.reg 1).toNat = 1 ∧ (signed4 0).toNat = 0 ∧ (signed4 0xF).toNat = 65535 := by decide

/-- The amounts 0, 1, 15, 16, 17 and above occur; immediate amounts are 0 to 7 and 65528 to 65535. -/
theorem test_witness_ShiftAmounts :
    [0, 1, 15, 16, 17, 65535].map (fun n => ((holding [(1, BitVec.ofNat 16 n)]).reg 1).toNat) = [0, 1, 15, 16, 17, 65535] ∧
    (signed4 0).toNat = 0 ∧ (signed4 1).toNat = 1 ∧ (signed4 7).toNat = 7 ∧ (signed4 8).toNat = 65528 := by decide

theorem test_witness_ImmediateFormsActOnTheSignExtendedField :
    ((holding [(3, 0xFFF8)]).reg 3).toInt = (0x8 : BitVec 4).toInt ∧
    ((holding [(3, 0x0007)]).reg 3).toInt = (0x7 : BitVec 4).toInt := by decide

theorem test_witness_JmpGoesToItsExtendedWord :
    atJmp.halted = false ∧ decode atJmp.cfg.opcodeMap atJmp.bytesAtPc = .ok (.jmp 0x41, []) ∧
    atJmp.wordValue (atJmp.pc + 2) = 0x41 := by decide

theorem test_witness_RetReturnsToAfterTheCall :
    State.reset.sp - 2 ≠ State.reset.cfg.consoleAddr ∧ State.reset.sp - 1 ≠ State.reset.cfg.consoleAddr ∧
    HasNext (exec (.call 0x20) State.reset) (fun t => t.sp = 0xFFFC) := ⟨by decide, by decide, _, rfl, by decide⟩

/-- The stack away from the console's address, and the low byte and the high byte on it. -/
theorem test_witness_PopReturnsWhatWasPushed :
    (State.reset.sp - 2 ≠ State.reset.cfg.consoleAddr ∧ State.reset.sp - 1 ≠ State.reset.cfg.consoleAddr) ∧
    (0xF002 : Word) - 2 = State.reset.cfg.consoleAddr ∧ (0xF001 : Word) - 1 = State.reset.cfg.consoleAddr ∧
    HasNext (exec (.push 0) { atAdd with sp := 0xF002 }) (fun t => t.out = [0xFF]) ∧
    HasNext (exec (.push 0) { atAdd with sp := 0xF001 }) (fun t => t.out = [0x7F]) :=
  ⟨by decide, by decide, by decide, ⟨_, rfl, by decide⟩, _, rfl, by decide⟩

theorem test_witness_HaltEndsTheRunNormally :
    atHalt.illegal = false ∧ HasNext (exec .halt atHalt) (fun t => t.normalEnd) := ⟨rfl, _, rfl, rfl, rfl⟩

/-- R280: what reset leaves, by the spec's list. -/
theorem test_reset_state :
    State.reset.Inv ∧ State.reset.pc = 0x0000 ∧ State.reset.sp = 0xFFFE ∧ zcno State.reset.flags = [0, 0, 0, 0] ∧
    State.reset.halted = false ∧ State.reset.illegal = false ∧ State.reset.icount = 0 := by decide

end Sys2Proof.Tests
end

/-! The state (10_state.md R23 to R39): what every instruction keeps, writes and reads, and the step that runs it. -/

namespace Sys2Proof

/-- An opcode without an extended word takes no notice of the word after its base word (R88). -/
theorem Op.assemble_ext_of_not_extended {o : Op} (h : o.isExtended = false) (w ext ext' : Word) :
    o.assemble w ext = o.assemble w ext' := by
  cases o <;> simp [Op.isExtended] at h <;> rfl

@[simp] theorem Op.op_assemble (o : Op) (w ext : Word) : (o.assemble w ext).op = o := by
  cases o <;> rfl

end Sys2Proof

namespace Sys2Proof.Machine

/-! ## Rules of the state's operations -/

theorem State.pushWord_setFlags (s : State) (v : Word) (g : Flags) :
    (s.setFlags g).pushWord v = (s.pushWord v).setFlags g :=
  State.writeWord_setFlags (s.setSp (s.sp - 2)) _ _ g

/-- What the store of a word emits (R55). -/
def emission (c : Config) (a v : Word) : List Byte :=
  if a = c.consoleAddr then [lowByte v] else if a + 1 = c.consoleAddr then [highByte v] else []

theorem State.writeWord_out_emission (s : State) (a v : Word) :
    (s.writeWord a v).out = s.out ++ emission s.cfg a v :=
  s.writeWord_out a v

theorem State.pushWord_out_emission (s : State) (v : Word) :
    (s.pushWord v).out = s.out ++ emission s.cfg (s.sp - 2) v :=
  s.pushWord_out v

/-! ## The effects of the instructions, by shape -/

/-- The opcodes that write one general register and nothing else, from the registers and memory. -/
def registerMoveOps : List Op := [.mov, .movi, .loadIndirect]

/-- What an instruction's execute phase does to the state, by the shape of the effect: the 21 ALU instructions are two
shapes, the conditional branches one. What a written value may depend on is the type of the function that gives it: an
ALU result, say, on the parameters and the general registers alone. -/
inductive Effect : Instr → (State → State) → Prop
  | alu {i : Instr} {rd : Reg} (out : Config → Vector Word 8 → AluOut)
      (hi : i.op ∈ aluOps := by exact of_decide_eq_true rfl) (hd : destination i = some rd := by exact rfl) :
      Effect i fun s => s.writeAlu rd (out s.cfg s.regs)
  | compare {i : Instr} (flags : Vector Word 8 → Flags)
      (hi : i.op ∈ aluOps := by exact of_decide_eq_true rfl) :
      Effect i fun s => s.setFlags (flags s.regs)
  | move {i : Instr} {rd : Reg} (value : Vector Word 8 → Memory → Word)
      (hi : i.op ∈ registerMoveOps := by exact of_decide_eq_true rfl)
      (hd : destination i = some rd := by exact rfl) :
      Effect i fun s => s.setReg rd (value s.regs s.mem)
  | loadDirect (rd : Reg) (addr : Word) : Effect (.loadDirect rd addr) fun s => s.advancePc.setReg rd (s.readWord addr)
  | storeIndirect (rd rs : Reg) : Effect (.storeIndirect rd rs) fun s => s.writeWord (s.reg rs) (s.reg rd)
  | storeDirect (rd : Reg) (addr : Word) : Effect (.storeDirect rd addr) fun s => s.advancePc.writeWord addr (s.reg rd)
  | jmp (target : Word) : Effect (.jmp target) fun s => s.setPc target
  | branch {i : Instr} (taken : (z c n : Bool) → Bool) (target : Word)
      (hi : i.op ∈ conditionalOps := by exact of_decide_eq_true rfl) :
      Effect i fun s => s.setPc (if taken s.flags.z s.flags.c s.flags.n then target else s.pc + 2)
  | call (target : Word) : Effect (.call target) fun s => (s.advancePc.pushWord (s.pc + 2)).setPc target
  | ret : Effect .ret fun s => (s.setPc s.stackTop).dropWord
  | push (rd : Reg) : Effect (.push rd) fun s => s.pushWord (s.reg rd)
  | pop (rd : Reg) : Effect (.pop rd) fun s => (s.setReg rd s.stackTop).dropWord
  | halt : Effect .halt State.halt

/-- MOV to the same register is the general register write (R160). -/
theorem exec_mov (rd rs : Reg) (s : State) : exec (.mov rd rs) s = .next (s.setReg rd (s.reg rs)) := by
  show execMov rd rs s = _
  unfold execMov
  split
  · next h => rw [h, State.setReg_self]
  · rfl

/-- Every instruction has an effect, which is what `exec` does in every state. -/
theorem exists_effect : ∀ i : Instr, ∃ f, Effect i f ∧ ∀ s, exec i s = .next (f s)
  | .mov rd rs => ⟨_, .move (fun x _ => x[rs]), exec_mov rd rs⟩
  | .movi _ imm7 => ⟨_, .move (fun _ _ => sext7 imm7), fun _ => rfl⟩
  | .loadIndirect _ rs =>
    ⟨_, .move (fun x m => wordOfBytes (m.read x[rs].toNat) (m.read (x[rs] + 1).toNat)), fun _ => rfl⟩
  | .loadDirect rd addr => ⟨_, .loadDirect rd addr, fun _ => rfl⟩
  | .storeIndirect rd rs => ⟨_, .storeIndirect rd rs, fun _ => rfl⟩
  | .storeDirect rd addr => ⟨_, .storeDirect rd addr, fun _ => rfl⟩
  | .add _ rs rt => ⟨_, .alu (fun _ x => aluAdd x[rs] x[rt]), fun _ => rfl⟩
  | .sub _ rs rt => ⟨_, .alu (fun _ x => aluSub x[rs] x[rt]), fun _ => rfl⟩
  | .mul _ rs rt => ⟨_, .alu (fun _ x => aluMul x[rs] x[rt]), fun _ => rfl⟩
  | .div _ rs rt => ⟨_, .alu (fun c x => aluDiv c.div0N x[rs] x[rt]), fun _ => rfl⟩
  | .and _ rs rt => ⟨_, .alu (fun _ x => aluAnd x[rs] x[rt]), fun _ => rfl⟩
  | .or _ rs rt => ⟨_, .alu (fun _ x => aluOr x[rs] x[rt]), fun _ => rfl⟩
  | .xor _ rs rt => ⟨_, .alu (fun _ x => aluXor x[rs] x[rt]), fun _ => rfl⟩
  | .not _ rs => ⟨_, .alu (fun _ x => aluNot x[rs]), fun _ => rfl⟩
  | .shl _ rs rt => ⟨_, .alu (fun c x => aluShl c.shift16C x[rs] x[rt]), fun _ => rfl⟩
  | .shr _ rs rt => ⟨_, .alu (fun c x => aluShr c.shift16C x[rs] x[rt]), fun _ => rfl⟩
  | .cmp rs rt => ⟨_, .compare (fun x => (aluCompare x[rs] x[rt]).flags), fun _ => rfl⟩
  | .addi _ rs imm4 => ⟨_, .alu (fun _ x => aluAdd x[rs] (sext4 imm4)), fun _ => rfl⟩
  | .subi _ rs imm4 => ⟨_, .alu (fun _ x => aluSub x[rs] (sext4 imm4)), fun _ => rfl⟩
  | .muli _ rs imm4 => ⟨_, .alu (fun _ x => aluMul x[rs] (sext4 imm4)), fun _ => rfl⟩
  | .divi _ rs imm4 => ⟨_, .alu (fun c x => aluDiv c.div0N x[rs] (sext4 imm4)), fun _ => rfl⟩
  | .andi _ rs imm4 => ⟨_, .alu (fun _ x => aluAnd x[rs] (sext4 imm4)), fun _ => rfl⟩
  | .ori _ rs imm4 => ⟨_, .alu (fun _ x => aluOr x[rs] (sext4 imm4)), fun _ => rfl⟩
  | .xori _ rs imm4 => ⟨_, .alu (fun _ x => aluXor x[rs] (sext4 imm4)), fun _ => rfl⟩
  | .shli _ rs imm4 => ⟨_, .alu (fun c x => aluShl c.shift16C x[rs] (sext4 imm4)), fun _ => rfl⟩
  | .shri _ rs imm4 => ⟨_, .alu (fun c x => aluShr c.shift16C x[rs] (sext4 imm4)), fun _ => rfl⟩
  | .cmpi rs imm4 => ⟨_, .compare (fun x => (aluCompare x[rs] (sext4 imm4)).flags), fun _ => rfl⟩
  | .jmp target => ⟨_, .jmp target, fun _ => rfl⟩
  | .jz target => ⟨_, .branch (fun z _ _ => z) target, fun s => congrArg _ (s.branchIf_eq _ _)⟩
  | .jnz target => ⟨_, .branch (fun z _ _ => !z) target, fun s => congrArg _ (s.branchIf_eq _ _)⟩
  | .jc target => ⟨_, .branch (fun _ c _ => c) target, fun s => congrArg _ (s.branchIf_eq _ _)⟩
  | .jnc target => ⟨_, .branch (fun _ c _ => !c) target, fun s => congrArg _ (s.branchIf_eq _ _)⟩
  | .jn target => ⟨_, .branch (fun _ _ n => n) target, fun s => congrArg _ (s.branchIf_eq _ _)⟩
  | .call target => ⟨_, .call target, fun _ => rfl⟩
  | .ret => ⟨_, .ret, fun _ => rfl⟩
  | .push rd => ⟨_, .push rd, fun _ => rfl⟩
  | .pop rd => ⟨_, .pop rd, fun _ => rfl⟩
  | .halt => ⟨_, .halt, fun _ => rfl⟩

/-- What an instruction did to a state, and that it does the same to every state. -/
theorem effect_of_exec {i : Instr} {s t : State} (h : exec i s = .next t) :
    ∃ f, Effect i f ∧ t = f s ∧ ∀ s', exec i s' = .next (f s') := by
  obtain ⟨f, hf, he⟩ := exists_effect i
  rw [he s] at h
  cases h
  exact ⟨f, hf, rfl, he⟩

/-! ## What the effects keep, field by field -/

section
variable {i : Instr} {f : State → State}

/-- No instruction writes a parameter, the illegal mark or the counter (R36, R37, R118). -/
theorem Effect.keeps_cfg_illegal_icount (hf : Effect i f) (s : State) :
    (f s).cfg = s.cfg ∧ (f s).illegal = s.illegal ∧ (f s).icount = s.icount := by
  cases hf <;> simp

theorem Effect.mem_wf (hf : Effect i f) {s : State} (h : s.mem.wf = true) : (f s).mem.wf = true := by
  cases hf
  case storeIndirect | storeDirect => exact State.writeWord_mem_wf _ _ _ h
  case call | push => exact State.pushWord_mem_wf _ _ h
  all_goals exact h

theorem ne_halt_of_op_mem {l : List Op} (hi : i.op ∈ l) (hl : Op.halt ∉ l) : i ≠ .halt := by
  rintro rfl
  exact hl hi

/-- Only HALT writes `halted` (R35, R240). -/
theorem Effect.halted_iff (hf : Effect i f) (s : State) : (f s).halted = true ↔ s.halted = true ∨ i = .halt := by
  cases hf
  case alu _ _ hi _ | compare _ hi | move _ _ hi _ | branch _ _ hi => simp [ne_halt_of_op_mem hi (by decide)]
  all_goals simp

theorem Effect.flags_of_not_alu (hf : Effect i f) (hi : i.op ∉ aluOps) (s : State) : (f s).flags = s.flags := by
  cases hf
  case alu _ _ h _ | compare _ h => exact absurd h hi
  all_goals simp

theorem Effect.reg_of_ne_destination (hf : Effect i f) {r : Reg} (hr : destination i ≠ some r) (s : State) :
    (f s).reg r = s.reg r := by
  cases hf
  case alu rd out _ hd => exact State.writeAlu_reg_other _ _ fun h => hr (h ▸ hd)
  case move rd value _ hd => exact State.setReg_reg_other _ _ fun h => hr (h ▸ hd)
  case loadDirect rd _ | pop rd => exact State.setReg_reg_other _ _ fun h => hr (h ▸ rfl)
  all_goals simp

/-- An instruction that is no control transfer advances `pc` over its extended word, if it has one (R28, R115). -/
theorem Effect.pc_of_not_controlTransfer (hf : Effect i f) (hi : i.op ∉ controlTransferOps) (s : State) :
    (f s).pc = if i.op ∈ fourByteOps then s.pc + 2 else s.pc := by
  have halu : ∀ o ∈ aluOps, o ∉ fourByteOps := by decide
  have hmove : ∀ o ∈ registerMoveOps, o ∉ fourByteOps := by decide
  have hcond : ∀ o ∈ conditionalOps, o ∈ controlTransferOps := by decide
  cases hf
  case alu _ _ h _ | compare _ h => exact (if_neg (halu _ h)).symm
  case move _ _ h _ => exact (if_neg (hmove _ h)).symm
  case branch _ _ h => exact absurd (hcond _ h) hi
  case jmp | call | ret => simp [Instr.op, controlTransferOps] at hi
  all_goals simp [Instr.op, fourByteOps]

theorem Effect.sp_of_not_stack (hf : Effect i f) (hi : i.op ∉ stackOps) (s : State) : (f s).sp = s.sp := by
  cases hf
  case call | ret | push | pop => simp [Instr.op, stackOps] at hi
  all_goals simp

/-! ## What the effects do not read -/

/-- Only a conditional branch reads a flag, and an ALU instruction overwrites all four (R32, R33). -/
theorem Effect.setFlags (hf : Effect i f) (hi : i.op ∉ conditionalOps) (s : State) (g : Flags) :
    f (s.setFlags g) = if i.op ∈ aluOps then f s else (f s).setFlags g := by
  have hmove : ∀ o ∈ registerMoveOps, o ∉ aluOps := by decide
  cases hf
  case alu _ _ h _ | compare _ h => exact (if_pos h).symm
  case move _ _ h _ => exact (if_neg (hmove _ h)).symm
  case branch _ _ h => exact absurd h hi
  case storeIndirect rd rs => exact State.writeWord_setFlags s _ _ g
  case storeDirect rd addr => exact State.writeWord_setFlags s.advancePc _ _ g
  case call target => exact congrArg (·.setPc target) (State.pushWord_setFlags s.advancePc _ g)
  case push rd => exact State.pushWord_setFlags s _ g
  all_goals rfl

/-- Only the stack instructions read `sp` (R29). -/
theorem Effect.setSp (hf : Effect i f) (hi : i.op ∉ stackOps) (s : State) (v : Word) :
    f (s.setSp v) = (f s).setSp v := by
  cases hf
  case call | ret | push | pop => simp [Instr.op, stackOps] at hi
  case storeIndirect rd rs => exact State.writeWord_setSp s _ _ v
  case storeDirect rd addr => exact State.writeWord_setSp s.advancePc _ _ v
  all_goals rfl

theorem Effect.sameToProgram (hf : Effect i f) {s s' : State} (h : SameToProgram s s') :
    SameToProgram (f s) (f s') := by
  obtain ⟨hcfg, hregs, hpc, hsp, hz, hc, hn, hhalted, hmem⟩ := h
  cases hf
  all_goals simp [SameToProgram, State.writeWord_mem, State.pushWord_mem, State.stackTop, State.readWord,
    State.readByte, State.reg, *]

theorem Effect.emits_same (hf : Effect i f) {s s' : State} (h : SameToProgram s s') :
    ∃ emitted : List Byte, (f s).out = s.out ++ emitted ∧ (f s').out = s'.out ++ emitted := by
  obtain ⟨hcfg, hregs, hpc, hsp, hz, hc, hn, hhalted, hmem⟩ := h
  cases hf
  case storeIndirect | storeDirect =>
    exact ⟨_, State.writeWord_out_emission _ _ _, by simp [State.writeWord_out_emission, State.reg, *]⟩
  case call | push => exact ⟨_, State.pushWord_out_emission _ _, by simp [State.pushWord_out_emission, State.reg, *]⟩
  all_goals exact ⟨[], by simp⟩

end

/-! ## The bytes at `pc` and the fetch -/

/-- What the fetch reads at `pc`, said of the bytes there. -/
theorem decode_bytesAtPc (s : State) :
    (∀ i, s.fetchDecode = .ok i →
      decode s.cfg.opcodeMap s.bytesAtPc = .ok (i, if i.op.isExtended then [] else s.bytesAtPc.drop 2)) ∧
    (∀ e, s.fetchDecode = .error e → decode s.cfg.opcodeMap s.bytesAtPc = .error (.illegalOpcode e.op)) := by
  have hext : s.fetchExt = wordOfBytes (s.readByte (s.pc + 2)) (s.readByte (s.pc + 3)) := by
    rw [← word_add_two_add_one]; rfl
  have hbase : wordOfBytes (s.readByte s.pc) (s.readByte (s.pc + 1)) = s.fetchBase := rfl
  unfold State.fetchDecode decodeWords
  simp only [State.bytesAtPc, decode, hbase, ← hext]
  cases hl : s.cfg.opcodeMap.lookup (opField s.fetchBase) with
  | none => simp
  | some o =>
    cases ho : o.isExtended
    · simp [ho, o.assemble_ext_of_not_extended ho s.fetchBase s.fetchExt 0]
    · simp [ho]

/-- The fetch gives an instruction exactly where the bytes at `pc` decode to it. -/
theorem fetchDecode_eq_ok_iff (s : State) (i : Instr) :
    s.fetchDecode = .ok i ↔ ∃ rest, decode s.cfg.opcodeMap s.bytesAtPc = .ok (i, rest) := by
  refine ⟨fun h => ⟨_, (decode_bytesAtPc s).1 i h⟩, fun ⟨rest, h⟩ => ?_⟩
  cases hd : s.fetchDecode with
  | ok j => simp_all [(decode_bytesAtPc s).1 j hd]
  | error e => simp [(decode_bytesAtPc s).2 e hd] at h

theorem fetchDecode_eq_error_iff (s : State) (op : BitVec 6) :
    s.fetchDecode = .error ⟨op⟩ ↔ decode s.cfg.opcodeMap s.bytesAtPc = .error (.illegalOpcode op) := by
  refine ⟨fun h => (decode_bytesAtPc s).2 _ h, fun h => ?_⟩
  cases hd : s.fetchDecode with
  | ok j => simp [(decode_bytesAtPc s).1 j hd] at h
  | error e =>
    have hop : e.op = op := by simpa [(decode_bytesAtPc s).2 e hd] using h
    rw [← hop]

theorem SameToProgram.fetchDecode_eq {s s' : State} (h : SameToProgram s s') : s.fetchDecode = s'.fetchDecode := by
  obtain ⟨hcfg, -, hpc, -, -, -, -, -, hmem⟩ := h
  simp [State.fetchDecode, State.fetchBase, State.fetchExt, State.readWord, State.readByte, hcfg, hpc, hmem]

theorem SameToProgram.beginExecute {s s' : State} (h : SameToProgram s s') :
    SameToProgram s.beginExecute s'.beginExecute := by
  obtain ⟨hcfg, hregs, hpc, hrest⟩ := h
  exact ⟨hcfg, hregs, congrArg (· + 2) hpc, hrest⟩

theorem SameToProgram.halted_eq {s s' : State} (h : SameToProgram s s') : s.halted = s'.halted := by
  obtain ⟨-, -, -, -, -, -, -, hhalted, -⟩ := h
  exact hhalted

theorem SameToProgram.raiseIllegalOpcode {s s' : State} (h : SameToProgram s s') (e : IllegalOpcode) :
    SameToProgram (s.raiseIllegalOpcode e) (s'.raiseIllegalOpcode e) := by
  obtain ⟨hcfg, hregs, hpc, hsp, hz, hc, hn, -, hmem⟩ := h
  exact ⟨hcfg, hregs, hpc, hsp, hz, hc, hn, rfl, hmem⟩

/-! ## The obligations -/

/-- Settles O13: case by case of the step; the counter is reduced modulo its width, and a running core that meets the
invariant is not marked, nor does any instruction mark it. -/
theorem stepKeepsInvariant : Obligations.StepKeepsInvariant := by
  intro s t hinv h
  obtain ⟨hcfg, hmem, hcount, hillegal⟩ := hinv
  have hbound : (s.icount + 1) % 2 ^ s.cfg.icountBits < 2 ^ s.cfg.icountBits := Nat.mod_lt _ (Nat.two_pow_pos _)
  rcases step_cases h with ⟨_, rfl⟩ | ⟨hrun, i, _, hx⟩ | ⟨_, e, _, rfl⟩
  · exact ⟨⟨hcfg, hmem, hcount, hillegal⟩, rfl⟩
  · obtain ⟨f, hf, rfl, -⟩ := effect_of_exec hx
    obtain ⟨kcfg, killegal, kcount⟩ := hf.keeps_cfg_illegal_icount s.beginExecute
    have hunmarked : (f s.beginExecute).illegal ≠ true := by
      rw [killegal]
      exact fun hm => by simp [hillegal hm] at hrun
    refine ⟨⟨kcfg ▸ hcfg, hf.mem_wf hmem, ?_, fun hm => absurd hm hunmarked⟩, kcfg⟩
    rw [kcfg, kcount]
    exact hbound
  · exact ⟨⟨hcfg, hmem, hbound, fun _ => rfl⟩, rfl⟩

/-- Settles O16: states that agree fetch the same instruction, whose effect keeps the agreement and emits the same. -/
theorem hostOnlyStateIsUnobservable : Obligations.HostOnlyStateIsUnobservable := by
  intro s s' t t' h ht ht'
  rcases step_cases ht with ⟨hhalted, rfl⟩ | ⟨hrun, i, hd, hx⟩ | ⟨hrun, e, hd, rfl⟩
  · rw [step_halted (h.halted_eq ▸ hhalted)] at ht'
    cases ht'
    exact ⟨h, [], by simp⟩
  · rw [step_running (h.halted_eq ▸ hrun) (h.fetchDecode_eq ▸ hd)] at ht'
    obtain ⟨f, hf, rfl, he⟩ := effect_of_exec hx
    rw [he] at ht'
    cases ht'
    exact ⟨hf.sameToProgram h.beginExecute, hf.emits_same h.beginExecute⟩
  · rw [step_illegal (h.halted_eq ▸ hrun) (h.fetchDecode_eq ▸ hd)] at ht'
    cases ht'
    exact ⟨h.beginExecute.raiseIllegalOpcode e, [], by simp⟩

/-- Settles O17: no instruction and no illegal opcode writes the counter or a parameter after the fetch counted. -/
theorem runningStepCountsOne : Obligations.RunningStepCountsOne := by
  intro s t hrun h
  rcases step_cases h with ⟨hhalted, _⟩ | ⟨_, i, _, hx⟩ | ⟨_, e, _, rfl⟩
  · simp [hrun] at hhalted
  · obtain ⟨f, hf, rfl, -⟩ := effect_of_exec hx
    obtain ⟨kcfg, -, kcount⟩ := hf.keeps_cfg_illegal_icount s.beginExecute
    exact ⟨kcount, kcfg⟩
  · exact ⟨rfl, rfl⟩

/-- R35, in terms of what the step fetches. -/
theorem halted_of_running_step {s t : State} (hrun : s.halted = false) (h : step s = .next t) :
    t.halted = true ↔ s.fetchDecode = .ok .halt ∨ ∃ op, s.fetchDecode = .error ⟨op⟩ := by
  rcases step_cases h with ⟨hhalted, _⟩ | ⟨_, i, hd, hx⟩ | ⟨_, e, hd, rfl⟩
  · simp [hrun] at hhalted
  · obtain ⟨f, hf, rfl, -⟩ := effect_of_exec hx
    simp [hf.halted_iff, hrun, hd]
  · exact iff_of_true rfl (.inr ⟨e.op, hd⟩)

/-- Settles O18: the fetch of a running core, said of the bytes at `pc`. -/
theorem haltedIsSetByHaltAndIllegalOpcodeOnly : Obligations.HaltedIsSetByHaltAndIllegalOpcodeOnly := by
  refine ⟨fun s t hrun h => ?_, fun s t hhalted h => ?_, State.hostReset_halted, rfl⟩
  · simp only [halted_of_running_step hrun h, fetchDecode_eq_ok_iff, fetchDecode_eq_error_iff]
  · rw [step_halted hhalted] at h
    cases h
    rfl

/-- Settles O19: an ALU instruction is no conditional branch, so other flags before it give the same state. -/
theorem flagsAreReplacedByAluInstructionsOnly : Obligations.FlagsAreReplacedByAluInstructionsOnly := by
  intro i s
  obtain ⟨f, hf, he⟩ := exists_effect i
  refine ⟨fun hi t h => ?_, fun hi g => ?_⟩
  · cases (he s).symm.trans h
    exact hf.flags_of_not_alu hi s
  · have hcond : ∀ o ∈ aluOps, o ∉ conditionalOps := by decide
    rw [he, he, hf.setFlags (hcond _ hi), if_pos hi]

/-- A conditional branch with the condition `P` goes to its target or on past its extended word (R212 to R216). -/
theorem exec_branch_goes {i : Instr} {s : State} {taken : Bool} {target : Word} {P : Prop}
    (hx : exec i s = .next (s.branchIf taken target)) (hP : taken = true ↔ P) :
    ∃ t, exec i s = .next t ∧ (P → t.pc = target) ∧ (¬ P → t.pc = s.pc + 2) ∧ t.sp = s.sp ∧ t.flags = s.flags ∧
      KeepsRegs s t ∧ KeepsEngine s t ∧ KeepsMemory s t := by
  refine ⟨_, hx, ?_⟩
  rw [State.branchIf_eq]
  exact ⟨fun h => if_pos (hP.2 h), fun h => if_neg fun ht => h (hP.1 ht), rfl, rfl, fun _ => rfl,
    ⟨rfl, rfl, rfl, rfl⟩, fun _ => rfl, rfl⟩

/-- Settles O20: each branch is `branchIf` of its own condition. -/
theorem flagsAreReadByConditionalBranchesOnly : Obligations.FlagsAreReadByConditionalBranchesOnly := by
  refine ⟨fun s target => ⟨exec_branch_goes rfl Iff.rfl, exec_branch_goes rfl (by simp), exec_branch_goes rfl Iff.rfl,
    exec_branch_goes rfl (by simp), exec_branch_goes rfl Iff.rfl⟩, fun i s t g hi h => ?_⟩
  obtain ⟨f, hf, rfl, he⟩ := effect_of_exec h
  rw [he, hf.setFlags hi]

/-- Settles O21, by the shape of the effect. -/
theorem onlyTheDestinationRegisterIsWritten : Obligations.OnlyTheDestinationRegisterIsWritten := by
  intro i s t r h hr
  obtain ⟨f, hf, rfl, -⟩ := effect_of_exec h
  exact hf.reg_of_ne_destination hr s

/-- Settles O22: the fetch advances `pc` by 2, and an extended form by 2 more. -/
theorem pcAdvancesByLengthElsewhere : Obligations.PcAdvancesByLengthElsewhere := by
  intro s t i rest hrun hdec hi h
  rw [step_running hrun ((fetchDecode_eq_ok_iff s i).2 ⟨rest, hdec⟩)] at h
  obtain ⟨f, hf, rfl, -⟩ := effect_of_exec h
  rw [hf.pc_of_not_controlTransfer hi, State.beginExecute_pc, word_add_two_add_two]
  split <;> rfl

/-- Settles O23: the effect keeps `sp` and commutes with writing it. -/
theorem onlyStackInstructionsUseSp : Obligations.OnlyStackInstructionsUseSp := by
  intro i s t hi h
  obtain ⟨f, hf, rfl, he⟩ := effect_of_exec h
  exact ⟨hf.sp_of_not_stack hi s, fun v => (he _).trans (congrArg _ (hf.setSp hi s v))⟩

end Sys2Proof.Machine

/-! Memory and the console (20_memory.md R50 to R66): what a stored word leaves in the state, said once of the word
write, and from there of every instruction and of the step. -/

namespace Sys2Proof.Machine

/-! ## The bytes of a word as numbers -/

theorem ofNat_mod_eq_lowByte (v : Word) : BitVec.ofNat 8 (v.toNat % 256) = lowByte v := by
  rw [← lowByte_toNat, BitVec.ofNat_toNat, BitVec.setWidth_eq]

theorem ofNat_div_eq_highByte (v : Word) : BitVec.ofNat 8 (v.toNat / 256) = highByte v := by
  rw [← highByte_toNat, BitVec.ofNat_toNat, BitVec.setWidth_eq]

/-- The word read at an address has the value of the two bytes there (R54). -/
theorem State.readWord_toNat (s : State) (a : Word) : (s.readWord a).toNat = s.wordValue a :=
  wordOfBytes_toNat _ _

/-- The first and the second word of the four bytes at `pc`. -/
theorem State.bytesAtPc_take_drop (s : State) :
    s.bytesAtPc.take 2 = [s.readByte s.pc, s.readByte (s.pc + 1)] ∧
    s.bytesAtPc.drop 2 = [s.readByte (s.pc + 2), s.readByte (s.pc + 2 + 1)] := by
  rw [word_add_two_add_one]
  exact ⟨rfl, rfl⟩

/-! ## The load and the store of a word (R54, R55) -/

/-- A register that takes the word at an address has its value, and nothing else changes. -/
theorem State.setReg_readWord_loads (s : State) (rd : Reg) (a : Word) :
    let t := s.setReg rd (s.readWord a)
    (t.reg rd).toNat = s.wordValue a ∧ KeepsRegsBut rd s t ∧ t.pc = s.pc ∧ t.sp = s.sp ∧ t.flags = s.flags ∧
      KeepsEngine s t ∧ KeepsMemory s t := by
  refine ⟨?_, fun r hr => s.setReg_reg_other _ hr, rfl, rfl, rfl, ⟨rfl, rfl, rfl, rfl⟩, fun _ => rfl, rfl⟩
  rw [State.setReg_reg_same, State.readWord_toNat]

theorem State.writeWord_wordStored (s : State) (a v : Word) : WordStored s (s.writeWord a v) a v := by
  refine ⟨fun x hx hx1 => ?_, fun ha => ?_, fun ha1 => ?_, ?_, ?_⟩
  · rw [State.writeWord_readByte, if_neg hx, if_neg hx1, ite_self]
  · rw [State.writeWord_readByte, if_neg ha, if_pos rfl, lowByte_toNat]
  · rw [State.writeWord_readByte, if_neg ha1, if_neg (word_succ_ne a), if_pos rfl, highByte_toNat]
  · rw [State.writeWord_readByte, if_pos rfl]
  · rw [State.writeWord_out, ofNat_mod_eq_lowByte, ofNat_div_eq_highByte]

/-- A push stores its word just below the old `sp` (R230). -/
theorem State.pushWord_wordStored (s : State) (v : Word) : WordStored s (s.pushWord v) (s.sp - 2) v :=
  (s.setSp (s.sp - 2)).writeWord_wordStored _ _

/-- The store of a word touches memory and the output alone. -/
theorem State.writeWord_frame (s : State) (a v : Word) :
    KeepsRegs s (s.writeWord a v) ∧ (s.writeWord a v).pc = s.pc ∧ (s.writeWord a v).sp = s.sp ∧
      (s.writeWord a v).flags = s.flags ∧ KeepsEngine s (s.writeWord a v) := by
  simp [KeepsRegs, KeepsEngine]

section
variable {s t : State} {a v : Word}

/-- A stored word is emitted in at most one byte, because its two bytes lie at different addresses (R55). -/
theorem WordStored.out_cases (h : WordStored s t a v) : t.out = s.out ∨ ∃ b, t.out = s.out ++ [b] := by
  obtain ⟨-, -, -, -, hout⟩ := h
  rw [hout]
  split
  · exact .inr ⟨_, rfl⟩
  · split
    · exact .inr ⟨_, rfl⟩
    · exact .inl (List.append_nil _)

/-- A word stored away from the console's address reads back, as a word and as its two bytes (R54, R55). -/
theorem WordStored.reads_back (h : WordStored s t a v) (ha : a ≠ s.cfg.consoleAddr)
    (ha1 : a + 1 ≠ s.cfg.consoleAddr) :
    t.readWord a = v ∧ [t.readByte a, t.readByte (a + 1)] = bytesOfWord v := by
  obtain ⟨-, hlow, hhigh, -, -⟩ := h
  have hl : t.readByte a = lowByte v := BitVec.eq_of_toNat_eq ((hlow ha).trans (lowByte_toNat v).symm)
  have hh : t.readByte (a + 1) = highByte v := BitVec.eq_of_toNat_eq ((hhigh ha1).trans (highByte_toNat v).symm)
  rw [State.readWord, hl, hh]
  exact ⟨wordOfBytes_low_high v, rfl⟩

end

/-! ## What an instruction does to memory -/

/-- The opcodes that store a word (R59). -/
def storeOps : List Op := [.storeIndirect, .storeDirect, .call, .push]

theorem storeAddress_eq_none_iff (s : State) (i : Instr) : storeAddress s i = none ↔ i.op ∉ storeOps := by
  cases i <;> simp [storeAddress, storeOps, Instr.op]

/-- An instruction leaves memory and the output as they are, or stores one word at its address (R59, R63). -/
theorem Effect.memory_cases {i : Instr} {f : State → State} (hf : Effect i f) (s : State) :
    (storeAddress s i = none ∧ KeepsMemory s (f s)) ∨
    ∃ a v, storeAddress s i = some a ∧ storedWord s i = some v ∧ WordStored s (f s) a v := by
  have halu : ∀ o ∈ aluOps, o ∉ storeOps := by decide
  have hmove : ∀ o ∈ registerMoveOps, o ∉ storeOps := by decide
  have hcond : ∀ o ∈ conditionalOps, o ∉ storeOps := by decide
  cases hf
  case storeIndirect => exact .inr ⟨_, _, rfl, rfl, s.writeWord_wordStored _ _⟩
  case storeDirect => exact .inr ⟨_, _, rfl, rfl, s.advancePc.writeWord_wordStored _ _⟩
  case call => exact .inr ⟨_, _, rfl, rfl, s.advancePc.pushWord_wordStored _⟩
  case push => exact .inr ⟨_, _, rfl, rfl, s.pushWord_wordStored _⟩
  case alu _ _ hi _ | compare _ hi => exact .inl ⟨(storeAddress_eq_none_iff s i).2 (halu _ hi), fun _ => rfl, rfl⟩
  case move _ _ hi _ => exact .inl ⟨(storeAddress_eq_none_iff s i).2 (hmove _ hi), fun _ => rfl, rfl⟩
  case branch _ _ hi => exact .inl ⟨(storeAddress_eq_none_iff s i).2 (hcond _ hi), fun _ => rfl, rfl⟩
  case loadDirect | jmp | ret | pop | halt => exact .inl ⟨rfl, fun _ => rfl, rfl⟩

theorem exec_memory_cases {i : Instr} {s t : State} (h : exec i s = .next t) :
    (storeAddress s i = none ∧ KeepsMemory s t) ∨
    ∃ a v, storeAddress s i = some a ∧ storedWord s i = some v ∧ WordStored s t a v := by
  obtain ⟨f, hf, rfl, -⟩ := effect_of_exec h
  exact hf.memory_cases s

/-- The step, as far as memory goes: it changes nothing there, or stores one word (R59). -/
theorem step_memory_cases {s t : State} (h : step s = .next t) : KeepsMemory s t ∨ ∃ a v, WordStored s t a v := by
  rcases step_cases h with ⟨_, rfl⟩ | ⟨_, i, _, hx⟩ | ⟨_, e, _, rfl⟩
  · exact .inl ⟨fun _ => rfl, rfl⟩
  · rcases exec_memory_cases hx with ⟨_, hkeeps⟩ | ⟨a, v, _, _, hstored⟩
    · exact .inl hkeeps
    · exact .inr ⟨a, v, hstored⟩
  · exact .inl ⟨fun _ => rfl, rfl⟩

/-! ## The obligations -/

/-- Settles O15: the step stores at most one word, and the store of a word keeps the console's byte and emits at most
one. -/
theorem consoleByteIsNeverStoredTo : Obligations.ConsoleByteIsNeverStoredTo := by
  intro s t h
  rcases step_memory_cases h with ⟨hbytes, hout⟩ | ⟨a, v, hstored⟩
  · exact ⟨hbytes _, .inl hout⟩
  · have hout := hstored.out_cases
    obtain ⟨-, -, -, hconsole, -⟩ := hstored
    exact ⟨hconsole, hout⟩

/-- Settles O24: the two cases of an instruction's effect on memory are the two clauses. -/
theorem memoryChangesOnlyWhereStored : Obligations.MemoryChangesOnlyWhereStored := by
  intro i s t h
  rcases exec_memory_cases h with ⟨hnone, hkeeps⟩ | ⟨a, v, hsome, _, hother, _⟩
  · exact ⟨fun _ x _ _ _ => hkeeps.1 x, fun _ => hkeeps⟩
  · refine ⟨fun b x hb hx hx1 => ?_, fun hnone => by simp [hsome] at hnone⟩
    obtain rfl : a = b := Option.some.inj (hsome.symm.trans hb)
    exact hother x hx hx1

/-- Settles O30: the direct form is the same load, past the extended word. -/
theorem loadsReadTheWord : Obligations.LoadsReadTheWord := fun s rd _ _ =>
  ⟨⟨_, rfl, s.setReg_readWord_loads rd _⟩, _, rfl, s.advancePc.setReg_readWord_loads rd _⟩

/-- Settles O31: the direct form is the same store, past the extended word. -/
theorem storesWriteTheWord : Obligations.StoresWriteTheWord := fun s _ _ _ =>
  ⟨⟨_, rfl, s.writeWord_wordStored _ _, s.writeWord_frame _ _⟩,
    _, rfl, s.advancePc.writeWord_wordStored _ _, s.advancePc.writeWord_frame _ _⟩

/-- Settles O32: the word reads back where it was stored, and the fetch reads two words, at `pc` and just after. -/
theorem storedCodeIsFetchedNext : Obligations.StoredCodeIsFetchedNext := by
  intro i s t a v hsa hsv h ha ha1
  rcases exec_memory_cases h with ⟨hnone, _⟩ | ⟨b, w, hsb, hsw, hstored⟩
  · simp [hsa] at hnone
  · obtain rfl : b = a := Option.some.inj (hsb.symm.trans hsa)
    obtain rfl : w = v := Option.some.inj (hsw.symm.trans hsv)
    obtain ⟨hword, hbytes⟩ := hstored.reads_back ha ha1
    obtain ⟨htake, hdrop⟩ := t.bytesAtPc_take_drop
    constructor <;> rintro rfl
    · exact ⟨hword, htake.trans hbytes⟩
    · exact ⟨hword, hdrop.trans hbytes⟩

end Sys2Proof.Machine

/-! Encoding (30_encoding.md R80 to R101): the fields of a base word as numbers, decoding against encoding, and assembly
lines against both. -/

namespace Sys2Proof

open Machine

/-! ## The fields of a base word as numbers (R81, R82) -/

theorem opField_toNat (w : Word) : (opField w).toNat = w.toNat / 1024 := by
  have := w.isLt
  simp only [opField, BitVec.extractLsb'_toNat, Nat.shiftRight_eq_div_pow]
  omega

theorem rdField_val (w : Word) : (rdField w).val = w.toNat / 128 % 8 := by
  simp [rdField, BitVec.extractLsb'_toNat, Nat.shiftRight_eq_div_pow]

theorem rsField_val (w : Word) : (rsField w).val = w.toNat / 16 % 8 := by
  simp [rsField, BitVec.extractLsb'_toNat, Nat.shiftRight_eq_div_pow]

theorem rtField_val (w : Word) : (rtField w).val = w.toNat % 8 := by
  simp [rtField, BitVec.extractLsb'_toNat]

theorem imm4Field_toNat (w : Word) : (imm4Field w).toNat = w.toNat % 16 := by
  simp [imm4Field, BitVec.extractLsb'_toNat]

theorem imm7Field_toNat (w : Word) : (imm7Field w).toNat = w.toNat % 128 := by
  simp [imm7Field, BitVec.extractLsb'_toNat]

/-! ## The packed words as numbers (R95) -/

/-- A field put above a value that lies below it is added to it. -/
theorem shiftLeft_or_toNat {k x : Nat} {v : Word} (hx : x * 2 ^ k < 65536) (hv : v.toNat < 2 ^ k) :
    (BitVec.ofNat 16 x <<< k ||| v).toNat = x * 2 ^ k + v.toNat := by
  have hx16 : x < 65536 := lt_of_le_of_lt (Nat.le_mul_of_pos_right x (Nat.two_pow_pos k)) hx
  rw [BitVec.toNat_or, BitVec.toNat_shiftLeft, BitVec.toNat_ofNat, Nat.mod_eq_of_lt hx16, Nat.shiftLeft_eq,
    Nat.mod_eq_of_lt hx, Nat.mul_comm, Nat.two_pow_add_eq_or_of_lt hv]

theorem packRegisterForm_toNat (op rd rs rt : Nat) : (packRegisterForm op rd rs rt).toNat =
    1024 * (op % 64) + 128 * (rd % 8) + 16 * (rs % 8) + rt % 16 := by
  have hrt : (BitVec.ofNat 16 (rt % 16)).toNat = rt % 16 := Nat.mod_eq_of_lt (by omega)
  have hrs := shiftLeft_or_toNat (k := 4) (x := rs % 8) (v := BitVec.ofNat 16 (rt % 16)) (by omega) (by omega)
  have hrd := shiftLeft_or_toNat (k := 7) (x := rd % 8) (by omega) (by rw [hrs]; omega)
  have hop := shiftLeft_or_toNat (k := 10) (x := op % 64) (by omega) (by rw [hrd]; omega)
  rw [packRegisterForm, BitVec.or_assoc, BitVec.or_assoc, hop, hrd, hrs, hrt]
  omega

theorem packShortImmediate_toNat (op rd imm7 : Nat) : (packShortImmediate op rd imm7).toNat =
    1024 * (op % 64) + 128 * (rd % 8) + imm7 % 128 := by
  have himm : (BitVec.ofNat 16 (imm7 % 128)).toNat = imm7 % 128 := Nat.mod_eq_of_lt (by omega)
  have hrd := shiftLeft_or_toNat (k := 7) (x := rd % 8) (v := BitVec.ofNat 16 (imm7 % 128)) (by omega) (by omega)
  have hop := shiftLeft_or_toNat (k := 10) (x := op % 64) (by omega) (by rw [hrd]; omega)
  rw [packShortImmediate, BitVec.or_assoc, hop, hrd, himm]
  omega

/-! ## A field read back from a packed word (R95) -/

@[simp] theorem opField_packRegisterForm (c : BitVec 6) (rd rs rt : Nat) :
    opField (packRegisterForm c.toNat rd rs rt) = c := by
  apply BitVec.eq_of_toNat_eq
  rw [opField_toNat, packRegisterForm_toNat]
  omega

@[simp] theorem rdField_packRegisterForm (op : Nat) (rd : Reg) (rs rt : Nat) :
    rdField (packRegisterForm op rd rs rt) = rd := by
  apply Fin.ext
  rw [rdField_val, packRegisterForm_toNat]
  omega

@[simp] theorem rsField_packRegisterForm (op rd : Nat) (rs : Reg) (rt : Nat) :
    rsField (packRegisterForm op rd rs rt) = rs := by
  apply Fin.ext
  rw [rsField_val, packRegisterForm_toNat]
  omega

@[simp] theorem rtField_packRegisterForm (op rd rs : Nat) (rt : Reg) :
    rtField (packRegisterForm op rd rs rt) = rt := by
  apply Fin.ext
  rw [rtField_val, packRegisterForm_toNat]
  omega

@[simp] theorem imm4Field_packRegisterForm (op rd rs : Nat) (imm4 : BitVec 4) :
    imm4Field (packRegisterForm op rd rs imm4.toNat) = imm4 := by
  apply BitVec.eq_of_toNat_eq
  rw [imm4Field_toNat, packRegisterForm_toNat]
  omega

@[simp] theorem opField_packShortImmediate (c : BitVec 6) (rd imm7 : Nat) :
    opField (packShortImmediate c.toNat rd imm7) = c := by
  apply BitVec.eq_of_toNat_eq
  rw [opField_toNat, packShortImmediate_toNat]
  omega

@[simp] theorem rdField_packShortImmediate (op : Nat) (rd : Reg) (imm7 : Nat) :
    rdField (packShortImmediate op rd imm7) = rd := by
  apply Fin.ext
  rw [rdField_val, packShortImmediate_toNat]
  omega

@[simp] theorem imm7Field_packShortImmediate (op rd : Nat) (imm7 : BitVec 7) :
    imm7Field (packShortImmediate op rd imm7.toNat) = imm7 := by
  apply BitVec.eq_of_toNat_eq
  rw [imm7Field_toNat, packShortImmediate_toNat]
  omega

/-! ## The base word of an instruction gives it back (R84) -/

theorem opField_baseWord (c : BitVec 6) (i : Instr) : opField (i.baseWord c) = c := by
  cases i
  case movi => exact opField_packShortImmediate c _ _
  all_goals exact opField_packRegisterForm c _ _ _

/-- Every operand is in its field of the base word, or is the extended word. -/
theorem assemble_baseWord (c : BitVec 6) (i : Instr) :
    i.op.assemble (i.baseWord c) (i.extendedWord.getD 0) = i := by
  cases i <;> simp [Instr.op, Op.assemble, Instr.baseWord, Instr.extendedWord]

/-! ## Lengths (R80, R83, R89) -/

theorem Op.isExtended_iff (o : Op) : o.isExtended = true ↔ o ∈ fourByteOps := by
  cases o <;> decide

theorem Op.length_eq (o : Op) : o.length = if o ∈ fourByteOps then 4 else 2 := by
  simp only [Op.length, Op.isExtended_iff]

/-- The words of every instruction are as many as its opcode's length says. -/
theorem encodedForm (i : Instr) : Laws.EncodedForm.Statement i := by
  cases i <;> exact fun _ => ⟨rfl, rfl, rfl⟩

theorem length_flatMap_bytesOfWord (ws : List Word) : (ws.flatMap bytesOfWord).length = 2 * ws.length := by
  simp [List.length_flatMap, bytesOfWord, Nat.mul_comm]

/-- Under a well-formed map every instruction has bytes, as many as its opcode's length says. -/
theorem encode_of_wf {m : OpcodeMap} (hm : m.wf = true) (i : Instr) :
    ∃ c, m.lookup c = some i.op ∧ encode m i = some ((i.words c).flatMap bytesOfWord) ∧
      ((i.words c).flatMap bytesOfWord).length = i.op.length := by
  obtain ⟨c, hcode, hlookup⟩ := OpcodeMap.code_of_wf hm i.op
  obtain ⟨hlength, -, -⟩ := encodedForm i c
  exact ⟨c, hlookup, by rw [encode, hcode, Option.map_some], by rw [length_flatMap_bytesOfWord, hlength]⟩

/-! ## Decoding (R83, R101, R113) -/

section
variable {m : OpcodeMap} {o : Op}

theorem decodeWords_of_lookup {w : Word} (hl : m.lookup (opField w) = some o) (ext : Word) :
    decodeWords m w ext = .ok (o.assemble w ext) := by
  simp only [decodeWords, hl]

theorem decodeWords_eq_error_iff {w ext : Word} :
    (∃ e, decodeWords m w ext = .error e) ↔ m.lookup (opField w) = none := by
  cases hl : m.lookup (opField w) with
  | none => simp [decodeWords, hl]
  | some o => simp [decodeWords_of_lookup hl]

/-- An opcode without an extended word takes the two bytes of its base word. -/
theorem decode_short {w : Word} (hl : m.lookup (opField w) = some o) (ho : o.isExtended = false) (rest : List Byte) :
    decode m (bytesOfWord w ++ rest) = .ok (o.assemble w 0, rest) := by
  simp [decode, bytesOfWord, hl, ho]

/-- An opcode of extended form takes the four bytes of its two words. -/
theorem decode_extended {w : Word} (hl : m.lookup (opField w) = some o) (ho : o.isExtended = true) (ext : Word)
    (rest : List Byte) :
    decode m (bytesOfWord w ++ bytesOfWord ext ++ rest) = .ok (o.assemble w ext, rest) := by
  simp [decode, bytesOfWord, hl, ho]

/-- What is decoded from two bytes or more has the opcode looked up, and takes as many bytes as that has (R89). -/
theorem lookup_and_length_of_decode {b0 b1 : Byte} {bytes rest : List Byte} {i : Instr}
    (h : decode m (b0 :: b1 :: bytes) = .ok (i, rest)) :
    m.lookup (opField (wordOfBytes b0 b1)) = some i.op ∧
      (b0 :: b1 :: bytes).length = rest.length + i.op.length := by
  simp only [decode] at h
  split at h
  · cases h
  · next o hl =>
    split at h
    · next ho =>
      split at h
      · cases h
        simp [hl, Op.length, ho]
      · cases h
    · next ho =>
      cases h
      simp [hl, Op.length, ho]

/-- An opcode looked up gives the length. -/
theorem OpcodeMap.lengthOf_of_lookup {c : BitVec 6} (h : m.lookup c = some o) : m.lengthOf c = o.length := by
  simp only [OpcodeMap.lengthOf, h]

end

/-- The bytes of an instruction's words decode to it, whatever comes after them. -/
theorem decode_words {m : OpcodeMap} {c : BitVec 6} {i : Instr} (hl : m.lookup c = some i.op) (rest : List Byte) :
    decode m ((i.words c).flatMap bytesOfWord ++ rest) = .ok (i, rest) := by
  obtain ⟨-, -, hform⟩ := encodedForm i c
  have hbase : m.lookup (opField (i.baseWord c)) = some i.op := by rw [opField_baseWord, hl]
  have hback := assemble_baseWord c i
  rw [Instr.words]
  cases hext : i.extendedWord with
  | none =>
    rw [hext, Option.getD_none] at hback
    rw [hext] at hform
    have hdecode := decode_short hbase hform.symm rest
    rw [hback] at hdecode
    simpa using hdecode
  | some ext =>
    rw [hext, Option.getD_some] at hback
    rw [hext] at hform
    have hdecode := decode_extended hbase hform.symm ext rest
    rw [hback] at hdecode
    simpa using hdecode

/-- The opcode values the default map leaves free (R92, decision D2). -/
theorem lookup_defaultOpcodeMap_eq_none_iff :
    ∀ c : BitVec 6, defaultOpcodeMap.lookup c = none ↔ (0x25 ≤ c.toNat ∧ c.toNat ≤ 0x3E) := by decide

/-! ## Unused bits (R84, R88) -/

/-- A mask that holds all bits of a field leaves the field as it is. -/
theorem extractLsb'_and_of_allOnes {k : Word} {start len : Nat} (hk : k.extractLsb' start len = BitVec.allOnes len)
    (w : Word) : (w &&& k).extractLsb' start len = w.extractLsb' start len := by
  rw [BitVec.extractLsb'_and, hk, BitVec.and_allOnes]

section
variable {k : Word}

theorem opField_and (hk : k.extractLsb' 10 6 = BitVec.allOnes 6) (w : Word) : opField (w &&& k) = opField w :=
  extractLsb'_and_of_allOnes hk w

theorem rdField_and (hk : k.extractLsb' 7 3 = BitVec.allOnes 3) (w : Word) : rdField (w &&& k) = rdField w := by
  simp only [rdField, extractLsb'_and_of_allOnes hk]

theorem rsField_and (hk : k.extractLsb' 4 3 = BitVec.allOnes 3) (w : Word) : rsField (w &&& k) = rsField w := by
  simp only [rsField, extractLsb'_and_of_allOnes hk]

theorem rtField_and (hk : k.extractLsb' 0 3 = BitVec.allOnes 3) (w : Word) : rtField (w &&& k) = rtField w := by
  simp only [rtField, extractLsb'_and_of_allOnes hk]

theorem imm4Field_and (hk : k.extractLsb' 0 4 = BitVec.allOnes 4) (w : Word) : imm4Field (w &&& k) = imm4Field w :=
  extractLsb'_and_of_allOnes hk w

theorem imm7Field_and (hk : k.extractLsb' 0 7 = BitVec.allOnes 7) (w : Word) : imm7Field (w &&& k) = imm7Field w :=
  extractLsb'_and_of_allOnes hk w

end

theorem opField_and_usedBits (o : Op) (w : Word) : opField (w &&& usedBits o) = opField w :=
  opField_and (by cases o <;> decide) w

/-- The used bits of an opcode hold each field that its instruction is made of. -/
theorem Op.assemble_and_usedBits (o : Op) (w ext : Word) : o.assemble (w &&& usedBits o) ext = o.assemble w ext := by
  cases o <;> simp (disch := decide) only [Op.assemble, usedBits, rdField_and, rsField_and, rtField_and, imm4Field_and,
    imm7Field_and]

end Sys2Proof

namespace Sys2Proof.Machine

/-! ## Assembly lines (R98 to R100) -/

theorem asmImm7_toInt (v : BitVec 7) : asmImm7 v.toInt = some v := by
  have hlow := BitVec.le_toInt v
  have hhigh := BitVec.toInt_lt (x := v)
  rw [asmImm7, if_pos (by omega), BitVec.ofInt_toInt]

theorem asmImm4_toInt (v : BitVec 4) : asmImm4 v.toInt = some v := by
  have hlow := BitVec.le_toInt v
  have hhigh := BitVec.toInt_lt (x := v)
  rw [asmImm4, if_pos (by omega), BitVec.ofInt_toInt]

theorem asmWord_toNat (v : Word) : asmWord v.toNat = some v := by
  have hhigh := v.isLt
  rw [asmWord, if_pos (by omega), BitVec.ofInt_natCast, BitVec.ofNat_toNat, BitVec.setWidth_eq]

/-! ## What the operand forms accept (R98, R100) -/

section
variable {i : Instr} {as : List AsmOperand}

theorem asmReg3_eq_some_iff {k : Reg → Reg → Reg → Instr} :
    asmReg3 k as = some i ↔ ∃ rd rs rt, as = [.reg rd, .reg rs, .reg rt] ∧ k rd rs rt = i := by
  unfold asmReg3
  split <;> simp_all

theorem asmReg2Imm4_eq_some_iff {k : Reg → Reg → BitVec 4 → Instr} :
    asmReg2Imm4 k as = some i ↔
      ∃ rd rs v imm4, as = [.reg rd, .reg rs, .value v] ∧ asmImm4 v = some imm4 ∧ k rd rs imm4 = i := by
  unfold asmReg2Imm4
  split <;> simp_all

theorem asmReg2_eq_some_iff {k : Reg → Reg → Instr} :
    asmReg2 k as = some i ↔ ∃ a b, as = [.reg a, .reg b] ∧ k a b = i := by
  unfold asmReg2
  split <;> simp_all

theorem asmReg1_eq_some_iff {k : Reg → Instr} : asmReg1 k as = some i ↔ ∃ a, as = [.reg a] ∧ k a = i := by
  unfold asmReg1
  split <;> simp_all

theorem asmTarget_eq_some_iff {k : Word → Instr} :
    asmTarget k as = some i ↔ ∃ v target, as = [.value v] ∧ asmWord v = some target ∧ k target = i := by
  unfold asmTarget
  split <;> simp_all

theorem asmNone_eq_some_iff {j : Instr} : asmNone j as = some i ↔ as = [] ∧ j = i := by
  unfold asmNone
  split <;> simp_all

theorem asmMovi_eq_some_iff :
    asmMovi as = some i ↔ ∃ rd v imm7, as = [.reg rd, .value v] ∧ asmImm7 v = some imm7 ∧ .movi rd imm7 = i := by
  unfold asmMovi
  split <;> simp_all

theorem asmCmpi_eq_some_iff :
    asmCmpi as = some i ↔ ∃ rs v imm4, as = [.reg rs, .value v] ∧ asmImm4 v = some imm4 ∧ .cmpi rs imm4 = i := by
  unfold asmCmpi
  split <;> simp_all

theorem asmLoadStore_eq_some_iff {indirect : Reg → Reg → Instr} {direct : Reg → Word → Instr} :
    asmLoadStore indirect direct as = some i ↔
      (∃ rd rs, as = [.reg rd, .indirect rs] ∧ indirect rd rs = i) ∨
      (∃ rd v addr, as = [.reg rd, .value v] ∧ asmWord v = some addr ∧ direct rd addr = i) := by
  unfold asmLoadStore
  split <;> simp_all

end

/-! ## The size of a line (R98) -/

/-- Whether an operand as written is register-indirect, which is what the size of a LOAD or STORE is counted from. -/
def RawOperand.isIndirect : RawOperand → Bool
  | .indirect _ => true
  | _ => false

/-- Whether an operand with its symbol's value is register-indirect. -/
def AsmOperand.isIndirect : AsmOperand → Bool
  | .indirect _ => true
  | _ => false

theorem RawOperand.isIndirect_of_resolve {table : List (Chars × Nat)} {o : RawOperand} {a : AsmOperand}
    (h : o.resolve table = some a) : o.isIndirect = a.isIndirect := by
  cases o
  case symbol => obtain ⟨_, -, rfl⟩ := Option.map_eq_some_iff.1 h; rfl
  all_goals cases h; rfl

/-- Whatever values the symbols have, the same operands are register-indirect. -/
theorem any_isIndirect_of_resolveAll {table : List (Chars × Nat)} {os : List RawOperand} {as : List AsmOperand}
    (h : resolveAll table os = some as) : os.any RawOperand.isIndirect = as.any AsmOperand.isIndirect := by
  induction os generalizing as with
  | nil => cases h; rfl
  | cons o os ih =>
    rw [resolveAll] at h
    split at h
    · next ha has =>
      cases h
      rw [List.any_cons, List.any_cons, RawOperand.isIndirect_of_resolve ha, ih has]
    · cases h

theorem AsmStatement.length_of_loadStore {mn : Mnemonic} (h : mn = .LOAD ∨ mn = .STORE) (os : List RawOperand) :
    AsmStatement.length ⟨mn, os⟩ = if os.any RawOperand.isIndirect then 2 else 4 := by
  rcases h with rfl | rfl <;> rfl

/-- A line is counted as many bytes as the opcode it assembles to has. -/
theorem AsmStatement.assemble_length {table : List (Chars × Nat)} {l : AsmStatement} {i : Instr}
    (h : l.assemble table = some i) : i.op.length = l.length := by
  obtain ⟨mn, os⟩ := l
  rw [AsmStatement.assemble] at h
  split at h
  · next as has =>
    cases mn
    case LOAD | STORE =>
      rw [AsmStatement.length_of_loadStore (by decide), any_isIndirect_of_resolveAll has]
      rcases asmLoadStore_eq_some_iff.1 h with ⟨_, _, rfl, rfl⟩ | ⟨_, _, _, rfl, -, rfl⟩ <;> rfl
    case NOP | RET | HALT => obtain ⟨-, rfl⟩ := asmNone_eq_some_iff.1 h; rfl
    case MOVI => obtain ⟨_, _, _, -, -, rfl⟩ := asmMovi_eq_some_iff.1 h; rfl
    case CMPI => obtain ⟨_, _, _, -, -, rfl⟩ := asmCmpi_eq_some_iff.1 h; rfl
    case PUSH | POP => obtain ⟨_, -, rfl⟩ := asmReg1_eq_some_iff.1 h; rfl
    case MOV | NOT | CMP => obtain ⟨_, _, -, rfl⟩ := asmReg2_eq_some_iff.1 h; rfl
    case ADD | SUB | MUL | DIV | AND | OR | XOR | SHL | SHR =>
      obtain ⟨_, _, _, -, rfl⟩ := asmReg3_eq_some_iff.1 h; rfl
    case ADDI | SUBI | MULI | DIVI | ANDI | ORI | XORI | SHLI | SHRI =>
      obtain ⟨_, _, _, _, -, -, rfl⟩ := asmReg2Imm4_eq_some_iff.1 h; rfl
    case JMP | JZ | JNZ | JC | JNC | JN | CALL => obtain ⟨_, _, -, -, rfl⟩ := asmTarget_eq_some_iff.1 h; rfl
  · cases h

/-! ## Sign extension of an immediate (R85, R86) -/

theorem sext4_toInt (v : BitVec 4) : (sext4 v).toInt = v.toInt :=
  BitVec.toInt_signExtend_of_le (by decide)

theorem sext7_toInt (v : BitVec 7) : (sext7 v).toInt = v.toInt :=
  BitVec.toInt_signExtend_of_le (by decide)

/-! ## The obligations -/

/-- Settles O1: the bytes are those of the instruction's words under the value of its opcode. -/
theorem decodeOfEncodeIsTheInstruction : Obligations.DecodeOfEncodeIsTheInstruction := by
  intro m i hm
  obtain ⟨c, hlookup, hencode, hlength⟩ := encode_of_wf hm i
  exact ⟨_, hencode, hlength.trans i.op.length_eq, decode_words hlookup⟩

/-- Settles O2: a field is a quotient of the word's value, which is the sum of the fields at their weights. -/
theorem packedFieldsReadBackMasked : Obligations.PackedFieldsReadBackMasked := by
  refine ⟨fun op rd rs rt => ?_, fun op rd imm7 => ?_⟩
  · simp only [opField_toNat, rdField_val, rsField_val, rtField_val, imm4Field_toNat, packRegisterForm_toNat,
      and_true]
    omega
  · simp only [opField_toNat, rdField_val, imm7Field_toNat, packShortImmediate_toNat, and_true]
    omega

/-- Settles O3: a word is illegal where the map leaves its opcode value free. -/
theorem illegalOpcodesAreExactly25To3E : Obligations.IllegalOpcodesAreExactly25To3E := by
  intro w ext
  rw [decodeWords_eq_error_iff, lookup_defaultOpcodeMap_eq_none_iff, opField_toNat]

/-- Settles O4: both words decode as their used bits do, which are the same. -/
theorem unusedBitsAreIgnored : Obligations.UnusedBitsAreIgnored := by
  intro m o w w' ext ext' hl hused hext
  have hop : opField w' = opField w := by rw [← opField_and_usedBits o w', ← hused, opField_and_usedBits]
  have hbase : o.assemble w ext = o.assemble w' ext := by
    rw [← o.assemble_and_usedBits w, hused, o.assemble_and_usedBits]
  rw [decodeWords_of_lookup hl, decodeWords_of_lookup (hop ▸ hl), hbase]
  cases ho : o.isExtended with
  | true => rw [hext (o.isExtended_iff.1 ho)]
  | false => rw [o.assemble_ext_of_not_extended ho w' ext ext']

/-- Settles O5: the length is the looked-up opcode's own, and decoding takes as many bytes. -/
theorem lengthFollowsFromOpcodeAlone : Obligations.LengthFollowsFromOpcodeAlone := by
  refine fun m => ⟨fun c o h => ?_, fun c h => ?_, fun b0 b1 bytes rest i h => ?_⟩
  · rw [OpcodeMap.lengthOf_of_lookup h, o.length_eq]
  · simp only [OpcodeMap.lengthOf, h]
  · obtain ⟨hl, hlength⟩ := lookup_and_length_of_decode h
    exact ⟨by rw [hlength, OpcodeMap.lengthOf_of_lookup hl], hl⟩

/-- Settles O7: an immediate or an address that is printed is in the range that assembling takes. -/
theorem assembleOfDisassembleIsTheInstruction : Obligations.AssembleOfDisassembleIsTheInstruction := by
  intro i
  cases i
  case mov rd rs => by_cases h : rd = rs <;> simp [disassemble, h, AsmLine.assemble, asmNone, asmReg2]
  case movi rd imm7 => exact congrArg (Option.map (Instr.movi rd)) (asmImm7_toInt imm7)
  case cmpi rs imm4 => exact congrArg (Option.map (Instr.cmpi rs)) (asmImm4_toInt imm4)
  case addi | subi | muli | divi | andi | ori | xori | shli | shri =>
    exact congrArg (Option.map _) (asmImm4_toInt _)
  case loadDirect | storeDirect | jmp | jz | jnz | jc | jnc | jn | call =>
    exact congrArg (Option.map _) (asmWord_toNat _)
  all_goals rfl

/-- Settles O8: both are the length of the opcode. -/
theorem lineSizesAgreeWithEncoding : Obligations.LineSizesAgreeWithEncoding := by
  intro m table l i hm h
  obtain ⟨c, -, hencode, hlength⟩ := encode_of_wf hm i
  exact ⟨_, hencode, hlength.trans (AsmStatement.assemble_length h)⟩

/-- Settles O29: the register takes the sign-extended field, whose range is the field's. -/
theorem moviLoadsSignExtendedImmediate : Obligations.MoviLoadsSignExtendedImmediate := by
  intro s rd imm7
  have hlow := BitVec.le_toInt imm7
  have hhigh := BitVec.toInt_lt (x := imm7)
  have hvalue := sext7_toInt imm7
  have hnat := (sext7 imm7).toInt_eq_toNat_cond
  refine ⟨s.setReg rd (sext7 imm7), rfl, ?_, ?_, ?_, ?_, fun r hr => s.setReg_reg_other _ hr, rfl, rfl, rfl,
    ⟨rfl, rfl, rfl, rfl⟩, fun _ => rfl, rfl⟩
  all_goals rw [State.setReg_reg_same]
  all_goals omega

/-- Settles O42: the register form reads the sign-extended field from `rt`. -/
theorem immediateFormsActOnTheSignExtendedField : Obligations.ImmediateFormsActOnTheSignExtendedField := by
  intro s rd rs rt imm4 h
  have hrt : s.reg rt = sext4 imm4 := BitVec.eq_of_toInt_eq (h.trans (sext4_toInt imm4).symm)
  simp only [exec, execAdd, execSub, execMul, execDiv, execAnd, execOr, execXor, execShl, execShr, execCmp, hrt]
  exact ⟨rfl, rfl, rfl, rfl, rfl, rfl, rfl, rfl, rfl, rfl⟩

end Sys2Proof.Machine

/-! Fetch and decode (40_fetch_decode.md R110 to R118): the step of a halted and of a running core, and the run until the
first halted state. -/

namespace Sys2Proof.Machine

/-! ## Steps one after another -/

/-- Nothing stops the machine: no instruction does, and an illegal opcode leads to a next state (R250, R251). -/
theorem exists_step_eq_next (s : State) : ∃ t, step s = .next t := by
  cases hh : s.halted with
  | true => exact ⟨_, step_halted hh⟩
  | false =>
    cases hd : s.fetchDecode with
    | ok i =>
      obtain ⟨f, -, he⟩ := exists_effect i
      exact ⟨_, (step_running hh hd).trans (he _)⟩
    | error e => exact ⟨_, step_illegal hh hd⟩

theorem core_run_of_halted {s : State} (h : s.halted = true) (k : Nat) : core.run k s = .next s := by
  induction k with
  | zero => rfl
  | succ k ih => rw [core_run_next (step_halted h), ih]

/-! ## The host's run (R117) -/

theorem State.hostRun_of_halted {s : State} (h : s.halted = true) (k : Nat) : s.hostRun k = some s := by
  cases k <;> simp [State.hostRun, h]

theorem State.hostRun_succ_of_running {s u : State} (h : s.halted = false) (hs : step s = .next u) (k : Nat) :
    s.hostRun (k + 1) = u.hostRun k := by
  simp [State.hostRun, h, hs]

/-- The state `t` that `n` steps lead to is the first halted one. -/
def State.FirstHaltsAt (s t : State) (n : Nat) : Prop :=
  t.halted = true ∧ core.run n s = .next t ∧ ∀ j, j < n → ∃ u, core.run j s = .next u ∧ u.halted = false

theorem State.firstHaltsAt_zero_iff {s t : State} : s.FirstHaltsAt t 0 ↔ s.halted = true ∧ s = t := by
  constructor
  · rintro ⟨ht, hrun, -⟩
    cases hrun
    exact ⟨ht, rfl⟩
  · rintro ⟨hs, rfl⟩
    exact ⟨hs, rfl, fun j hj => absurd hj j.not_lt_zero⟩

/-- A running core first halts one step later than the state its step leads to. -/
theorem State.firstHaltsAt_succ_iff {s u t : State} {n : Nat} (hs : step s = .next u) :
    s.FirstHaltsAt t (n + 1) ↔ s.halted = false ∧ u.FirstHaltsAt t n := by
  simp only [State.FirstHaltsAt, Nat.forall_lt_succ_left, core_run_next hs]
  constructor
  · rintro ⟨ht, hrun, ⟨v, hv, hvrun⟩, hbefore⟩
    cases hv
    exact ⟨hvrun, ht, hrun, hbefore⟩
  · rintro ⟨hsrun, ht, hrun, hbefore⟩
    exact ⟨ht, hrun, ⟨s, rfl, hsrun⟩, hbefore⟩

theorem State.firstHaltsAt_iff_of_halted {s t : State} {n : Nat} (h : s.halted = true) :
    s.FirstHaltsAt t n ↔ n = 0 ∧ s = t := by
  cases n with
  | zero => simp [State.firstHaltsAt_zero_iff, h]
  | succ n => simp [State.firstHaltsAt_succ_iff (step_halted h), h]

/-- A run ends within its fuel exactly where the first halted state is reached within it. -/
theorem State.hostRun_eq_some_iff {s t : State} {k : Nat} :
    s.hostRun k = some t ↔ ∃ n, n ≤ k ∧ s.FirstHaltsAt t n := by
  induction k generalizing s with
  | zero => simp [State.hostRun, State.firstHaltsAt_zero_iff]
  | succ k ih =>
    cases hh : s.halted with
    | true => simp [State.hostRun_of_halted hh, State.firstHaltsAt_iff_of_halted hh]
    | false =>
      obtain ⟨u, hs⟩ := exists_step_eq_next s
      have hlater (n : Nat) : s.FirstHaltsAt t (n + 1) ↔ u.FirstHaltsAt t n := by
        simp [State.firstHaltsAt_succ_iff hs, hh]
      rw [State.hostRun_succ_of_running hh hs, ih,
        ← Nat.or_exists_add_one (p := fun n => n ≤ k + 1 ∧ s.FirstHaltsAt t n)]
      simp [State.firstHaltsAt_zero_iff, hh, hlater]

/-! ## The obligations -/

/-- Settles O9: the fetch gives what the bytes at `pc` decode to. -/
theorem stepRunsDecodedInstruction : Obligations.StepRunsDecodedInstruction :=
  fun s i rest hrun hdec => step_running hrun ((fetchDecode_eq_ok_iff s i).2 ⟨rest, hdec⟩)

/-- Settles O10, by induction on the number of steps. -/
theorem haltedStepsChangeNothing : Obligations.HaltedStepsChangeNothing :=
  fun _ k h => core_run_of_halted h k

/-- Settles O27: the number of steps to the first halted state does not depend on the fuel. -/
theorem runEndsAtTheFirstHaltedState : Obligations.RunEndsAtTheFirstHaltedState := by
  intro s t k h
  obtain ⟨n, hn, hfirst⟩ := State.hostRun_eq_some_iff.1 h
  have ⟨ht, hrun, hbefore⟩ := hfirst
  exact ⟨ht, fun j hj => State.hostRun_eq_some_iff.2 ⟨n, hn.trans hj, hfirst⟩, n, hn, hrun, hbefore⟩

end Sys2Proof.Machine

/-! The ALU (41_alu.md R130 to R143): what each of its functions returns, in numbers, and from there what the ALU
instructions write. -/

namespace Sys2Proof.Machine

/-! ## Results and flags as numbers -/

/-- Bit 15 is the sign bit of the word's value (R131). -/
theorem getLsbD_15_iff_signBit (v : Word) : v.getLsbD 15 = true ↔ SignBit v.toNat := by
  have hlast : v.getLsbD 15 = decide (32768 ≤ v.toNat) := v.getLsbD_last
  rw [hlast, decide_eq_true_iff, SignBit]

theorem zOf_iff (r : Word) : zOf r = true ↔ r.toNat = 0 :=
  decide_eq_true_iff.trans BitVec.toNat_inj.symm

theorem flagsFrom_flagsAre (r : Word) {c o : Bool} {C O : Prop} (hc : c = true ↔ C) (ho : o = true ↔ O) :
    FlagsAre (flagsFrom r c o) r.toNat C O :=
  ⟨zOf_iff r, getLsbD_15_iff_signBit r, hc, ho⟩

/-- What an ALU function returned: the result in numbers, and the flags of it (R130). -/
def AluOut.Is (x : AluOut) (r : Nat) (c o : Prop) : Prop :=
  x.result.toNat = r ∧ FlagsAre x.flags r c o

theorem AluOut.is_of_flagsFrom {v : Word} {r : Nat} {c o : Bool} {C O : Prop} (hr : v.toNat = r) (hc : c = true ↔ C)
    (ho : o = true ↔ O) : AluOut.Is ⟨v, flagsFrom v c o⟩ r C O :=
  ⟨hr, hr ▸ flagsFrom_flagsAre v hc ho⟩

/-! ## The ALU functions -/

/-- The 17-bit sum does not wrap (R132). -/
theorem sum17_toNat (a b : Word) : (sum17 a b).toNat = a.toNat + b.toNat := by
  simp only [sum17, BitVec.truncate_eq_setWidth, BitVec.toNat_add, BitVec.toNat_setWidth]
  omega

theorem addCarry_iff (a b : Word) : addCarry a b = true ↔ 65536 ≤ a.toNat + b.toNat := by
  have hlast : addCarry a b = decide (65536 ≤ (sum17 a b).toNat) := (sum17 a b).getLsbD_last
  rw [hlast, sum17_toNat, decide_eq_true_iff]

theorem getLsbD_15_eq_iff (a b : Word) : a.getLsbD 15 = b.getLsbD 15 ↔ (SignBit a.toNat ↔ SignBit b.toNat) := by
  rw [Bool.eq_iff_iff, getLsbD_15_iff_signBit, getLsbD_15_iff_signBit]

theorem addOverflow_iff (a b r : Word) : addOverflow a b r = true ↔
    (SignBit a.toNat ↔ SignBit b.toNat) ∧ ¬ (SignBit r.toNat ↔ SignBit a.toNat) := by
  simp only [addOverflow, Bool.and_eq_true, beq_iff_eq, bne_iff_ne, ne_eq, getLsbD_15_eq_iff]

theorem subOverflow_iff (a b r : Word) : subOverflow a b r = true ↔
    ¬ (SignBit a.toNat ↔ SignBit b.toNat) ∧ ¬ (SignBit r.toNat ↔ SignBit a.toNat) := by
  simp only [subOverflow, Bool.and_eq_true, bne_iff_ne, ne_eq, getLsbD_15_eq_iff]

/-- R132 in numbers. -/
theorem aluAdd_is (a b : Word) :
    let r := (a.toNat + b.toNat) % 65536
    (aluAdd a b).Is r (65536 ≤ a.toNat + b.toNat)
      ((SignBit a.toNat ↔ SignBit b.toNat) ∧ ¬ (SignBit r ↔ SignBit a.toNat)) := by
  have hr : (aluAdd a b).result.toNat = (a.toNat + b.toNat) % 65536 := by
    simp [aluAdd, BitVec.extractLsb'_toNat, sum17_toNat]
  exact AluOut.is_of_flagsFrom hr (addCarry_iff a b) (hr ▸ addOverflow_iff a b _)

/-- R133 in numbers. -/
theorem aluSub_is (a b : Word) :
    let r := (65536 + a.toNat - b.toNat) % 65536
    (aluSub a b).Is r (a.toNat < b.toNat)
      (¬ (SignBit a.toNat ↔ SignBit b.toNat) ∧ ¬ (SignBit r ↔ SignBit a.toNat)) := by
  have hr : (aluSub a b).result.toNat = (65536 + a.toNat - b.toNat) % 65536 := by
    simp only [aluSub, BitVec.toNat_sub]
    omega
  exact AluOut.is_of_flagsFrom hr decide_eq_true_iff (hr ▸ subOverflow_iff a b _)

/-- R134 in numbers: the low half of the 32-bit product is the low half of the exact one. -/
theorem aluMul_is (a b : Word) :
    (aluMul a b).Is (a.toNat * b.toNat % 65536) (65535 < a.toNat * b.toNat) False := by
  refine AluOut.is_of_flagsFrom ?_ decide_eq_true_iff Bool.false_eq_true.to_iff
  simp [BitVec.extractLsb'_toNat]

/-- R135 in numbers, for a divisor other than 0. -/
theorem aluDiv_is (n : Bool) (a : Word) {b : Word} (hb : b.toNat ≠ 0) :
    (aluDiv n a b).Is (a.toNat / b.toNat) False False := by
  have hquot : a.toNat / b.toNat < 65536 := (Nat.div_le_self _ _).trans_lt a.isLt
  have hb' : b ≠ 0 := fun h => hb (congrArg BitVec.toNat h)
  rw [aluDiv, if_neg hb']
  exact AluOut.is_of_flagsFrom (BitVec.toNat_ofNat _ _ |>.trans (Nat.mod_eq_of_lt hquot))
    Bool.false_eq_true.to_iff Bool.false_eq_true.to_iff

/-- The cap at 15 cannot be observed: a shift of the word by more leaves no bit either. -/
theorem aluShl_result (k : Shift16Carry) (a b : Word) : (aluShl k a b).result = a <<< b.toNat := by
  show (if b.toNat ≤ 15 then a <<< b.toNat else 0) = a <<< b.toNat
  split
  · rfl
  · exact (BitVec.shiftLeft_eq_zero (by omega)).symm

theorem aluShr_result (k : Shift16Carry) (a b : Word) : (aluShr k a b).result = a >>> b.toNat := by
  show (if b.toNat ≤ 15 then a >>> b.toNat else 0) = a >>> b.toNat
  split
  · rfl
  · exact (BitVec.ushiftRight_eq_zero (by omega)).symm

/-- The carry of a shift by `n`: the last of 1 to 15 bits shifted out, the bit that SHIFT16_C chooses at exactly 16, and
none otherwise (D11). -/
theorem shiftCarry_iff {n : Nat} {last at16 : Bool} :
    (if n = 0 then false else if n ≤ 15 then last else if n = 16 then at16 else false) = true ↔
      (1 ≤ n ∧ n ≤ 15 ∧ last = true) ∨ (n = 16 ∧ at16 = true) := by
  split_ifs with h0 h15 h16
  · simp [h0]
  · have hn : 1 ≤ n ∧ n ≠ 16 := by omega
    simp [h15, hn]
  · simp [h16]
  · simp [h15, h16]

theorem shlCarry_iff (k : Shift16Carry) (a : Word) (n : Nat) : shlCarry k a n = true ↔
    (1 ≤ n ∧ n ≤ 15 ∧ a.toNat.testBit (16 - n) = true) ∨
      (n = 16 ∧ a.toNat.testBit (if k = .lastOut then 0 else 15) = true) := by
  unfold shlCarry
  rw [shiftCarry_iff]
  cases k <;> rfl

theorem shrCarry_iff (k : Shift16Carry) (a : Word) (n : Nat) : shrCarry k a n = true ↔
    (1 ≤ n ∧ n ≤ 15 ∧ a.toNat.testBit (n - 1) = true) ∨
      (n = 16 ∧ a.toNat.testBit (if k = .lastOut then 15 else 0) = true) := by
  unfold shrCarry
  rw [shiftCarry_iff]
  cases k <;> rfl

/-- R140 in numbers. -/
theorem aluShl_is (k : Shift16Carry) (a b : Word) :
    (aluShl k a b).Is (a.toNat * 2 ^ b.toNat % 65536)
      ((1 ≤ b.toNat ∧ b.toNat ≤ 15 ∧ a.toNat.testBit (16 - b.toNat) = true) ∨
        (b.toNat = 16 ∧ a.toNat.testBit (if k = .lastOut then 0 else 15) = true)) False := by
  refine AluOut.is_of_flagsFrom ?_ (shlCarry_iff k a b.toNat) Bool.false_eq_true.to_iff
  have hresult := congrArg BitVec.toNat (aluShl_result k a b)
  rwa [BitVec.toNat_shiftLeft, Nat.shiftLeft_eq] at hresult

/-- R141 in numbers. -/
theorem aluShr_is (k : Shift16Carry) (a b : Word) :
    (aluShr k a b).Is (a.toNat / 2 ^ b.toNat)
      ((1 ≤ b.toNat ∧ b.toNat ≤ 15 ∧ a.toNat.testBit (b.toNat - 1) = true) ∨
        (b.toNat = 16 ∧ a.toNat.testBit (if k = .lastOut then 15 else 0) = true)) False := by
  refine AluOut.is_of_flagsFrom ?_ (shrCarry_iff k a b.toNat) Bool.false_eq_true.to_iff
  have hresult := congrArg BitVec.toNat (aluShr_result k a b)
  rwa [BitVec.toNat_ushiftRight, Nat.shiftRight_eq_div_pow] at hresult

/-! ## The ALU result in the destination -/

/-- All that an ALU result in `rd` leaves alone (R180, R181). -/
theorem State.writeAlu_frame (s : State) (rd : Reg) (x : AluOut) : AluFrame rd s (s.writeAlu rd x) :=
  ⟨fun _ hr => s.writeAlu_reg_other x hr, rfl, rfl, ⟨rfl, rfl, rfl, rfl⟩, fun _ => rfl, rfl⟩

theorem AluOut.Is.aluWrote {x : AluOut} {r : Nat} {c o : Prop} (h : x.Is r c o) (s : State) (rd : Reg) :
    AluWrote rd s (s.writeAlu rd x) r c o :=
  ⟨(congrArg BitVec.toNat (s.writeAlu_reg_same rd x)).trans h.1, h.2, s.writeAlu_frame rd x⟩

/-- R135 in the destination, by zero or not. -/
theorem State.writeAlu_aluDiv (s : State) (rd : Reg) (a b : Word) :
    DivWrote rd s (s.writeAlu rd (aluDiv s.cfg.div0N a b)) a.toNat b.toNat := by
  unfold DivWrote
  split
  · next hb =>
    have hb' : b = 0 := BitVec.eq_of_toNat_eq hb
    have hdiv : aluDiv s.cfg.div0N a b = ⟨0xFFFF, divZeroFlags s.cfg.div0N⟩ := if_pos hb'
    rw [hdiv, State.writeAlu_reg_same]
    exact ⟨rfl, rfl, s.writeAlu_frame rd _⟩
  · next hb => exact (aluDiv_is s.cfg.div0N a hb).aluWrote s rd

/-- R136 to R139 in the destination: a result `v` given by its bits, with Carry and Overflow 0. -/
theorem State.writeAlu_bitsWrote (s : State) (rd : Reg) (v : Word) {bit : Nat → Bool}
    (hbit : ∀ k, k < 16 → v.getLsbD k = bit k) :
    BitsWrote rd s (s.writeAlu rd ⟨v, flagsFrom v false false⟩) bit := by
  refine ⟨?_, ?_, s.writeAlu_frame rd _⟩
  all_goals rw [State.writeAlu_reg_same]
  · exact hbit
  · exact flagsFrom_flagsAre v Bool.false_eq_true.to_iff Bool.false_eq_true.to_iff

/-- R142 in the state: the flags of `sub`, and no register. -/
theorem State.setFlags_aluCompare (s : State) (a b : Word) :
    let t := s.setFlags (aluCompare a b).flags
    SubFlagsAre t.flags a.toNat b.toNat ∧ (aluCompare a b).result = 0 ∧ KeepsRegs s t ∧ t.pc = s.pc ∧ t.sp = s.sp ∧
      KeepsEngine s t ∧ KeepsMemory s t :=
  ⟨(aluSub_is a b).2, rfl, fun _ => rfl, rfl, rfl, ⟨rfl, rfl, rfl, rfl⟩, fun _ => rfl, rfl⟩

/-! ## Overflow as signed overflow (R143) -/

/-- O tells whether the exact signed value `e` fits 16 bits, and where it does the result is `e`. -/
def AluOut.ReportsOverflowOf (x : AluOut) (e : Int) : Prop :=
  (x.flags.o = true ↔ ¬ (-32768 ≤ e ∧ e ≤ 32767)) ∧ (x.flags.o = false → x.result.toInt = e)

theorem aluAdd_reportsOverflowOf (a b : Word) : (aluAdd a b).ReportsOverflowOf (a.toInt + b.toInt) := by
  obtain ⟨hr, -, -, -, ho⟩ := aluAdd_is a b
  unfold AluOut.ReportsOverflowOf
  rw [← Bool.not_eq_true, ho]
  simp only [BitVec.toInt_eq_toNat_cond, SignBit, hr]
  omega

theorem aluSub_reportsOverflowOf (a b : Word) : (aluSub a b).ReportsOverflowOf (a.toInt - b.toInt) := by
  obtain ⟨hr, -, -, -, ho⟩ := aluSub_is a b
  unfold AluOut.ReportsOverflowOf
  rw [← Bool.not_eq_true, ho]
  simp only [BitVec.toInt_eq_toNat_cond, SignBit, hr]
  omega

/-! ## The obligations

An immediate form calls the same function as its register form: `sext4` and `signed4` of a field are the same word by
definition (R85), so one law serves both forms. -/

/-- Settles O33: both forms write what `add` returns. -/
theorem addWritesSumAndFlags : Obligations.AddWritesSumAndFlags :=
  fun s rd _ _ _ => ⟨⟨_, rfl, (aluAdd_is _ _).aluWrote s rd⟩, ⟨_, rfl, (aluAdd_is _ _).aluWrote s rd⟩⟩

/-- Settles O34: both forms write what `sub` returns. -/
theorem subWritesDifferenceAndFlags : Obligations.SubWritesDifferenceAndFlags :=
  fun s rd _ _ _ => ⟨⟨_, rfl, (aluSub_is _ _).aluWrote s rd⟩, ⟨_, rfl, (aluSub_is _ _).aluWrote s rd⟩⟩

/-- Settles O35: an ALU result reports the overflow of the exact value. -/
theorem overflowIsSignedOverflow : Obligations.OverflowIsSignedOverflow := by
  rintro s _ _ rd rs rt ⟨⟩ ⟨⟩
  obtain ⟨hadd, haddExact⟩ := aluAdd_reportsOverflowOf (s.reg rs) (s.reg rt)
  obtain ⟨hsub, hsubExact⟩ := aluSub_reportsOverflowOf (s.reg rs) (s.reg rt)
  simp only [State.writeAlu_reg_same, State.writeAlu_flags]
  exact ⟨hadd, haddExact, hsub, hsubExact⟩

/-- Settles O36: both forms set what `compare` returns. -/
theorem compareSetsFlagsOfSubOnly : Obligations.CompareSetsFlagsOfSubOnly :=
  fun s _ _ _ _ => ⟨⟨_, _, rfl, rfl, rfl, s.setFlags_aluCompare _ _⟩, ⟨_, _, rfl, rfl, rfl, s.setFlags_aluCompare _ _⟩⟩

/-- Settles O37: both forms write what `mul` returns. -/
theorem mulWritesLowProductAndFlags : Obligations.MulWritesLowProductAndFlags :=
  fun s rd _ _ _ => ⟨⟨_, rfl, (aluMul_is _ _).aluWrote s rd⟩, ⟨_, rfl, (aluMul_is _ _).aluWrote s rd⟩⟩

/-- Settles O38: both forms write what `div` returns. -/
theorem divWritesQuotientOrSentinel : Obligations.DivWritesQuotientOrSentinel :=
  fun s rd _ _ _ => ⟨⟨_, rfl, s.writeAlu_aluDiv rd _ _⟩, ⟨_, rfl, s.writeAlu_aluDiv rd _ _⟩⟩

/-- Settles O39: each result is given by its bits. -/
theorem bitwiseOperationsSetZeroAndNegativeOnly : Obligations.BitwiseOperationsSetZeroAndNegativeOnly := by
  intro s rd rs rt imm4
  exact ⟨⟨_, rfl, s.writeAlu_bitsWrote rd _ fun k _ => BitVec.getLsbD_and⟩,
    ⟨_, rfl, s.writeAlu_bitsWrote rd _ fun k _ => BitVec.getLsbD_and⟩,
    ⟨_, rfl, s.writeAlu_bitsWrote rd _ fun k _ => BitVec.getLsbD_or⟩,
    ⟨_, rfl, s.writeAlu_bitsWrote rd _ fun k _ => BitVec.getLsbD_or⟩,
    ⟨_, rfl, s.writeAlu_bitsWrote rd _ fun k _ => BitVec.getLsbD_xor⟩,
    ⟨_, rfl, s.writeAlu_bitsWrote rd _ fun k _ => BitVec.getLsbD_xor⟩,
    ⟨_, rfl, s.writeAlu_bitsWrote rd _ fun k hk => by simp [hk]⟩⟩

/-- Settles O40: both forms write what `shl` returns. -/
theorem shlShiftsByWholeAmount : Obligations.ShlShiftsByWholeAmount :=
  fun s rd _ _ _ => ⟨⟨_, rfl, (aluShl_is _ _ _).aluWrote s rd⟩, ⟨_, rfl, (aluShl_is _ _ _).aluWrote s rd⟩⟩

/-- Settles O41: both forms write what `shr` returns. -/
theorem shrShiftsByWholeAmount : Obligations.ShrShiftsByWholeAmount :=
  fun s rd _ _ _ => ⟨⟨_, rfl, (aluShr_is _ _ _).aluWrote s rd⟩, ⟨_, rfl, (aluShr_is _ _ _).aluWrote s rd⟩⟩

end Sys2Proof.Machine

/-! Data movement (42_data_movement.md R160): MOV is the general register write, and the spec's example words decode as
they are printed. -/

namespace Sys2Proof.Machine

/-- Settles O6: nine fixed words under the fixed default map, so decoding them is a computation. -/
theorem specExampleWordsDecode : Obligations.SpecExampleWordsDecode := by
  unfold Obligations.SpecExampleWordsDecode
  decide

/-- Settles O28: MOV writes `rd` with the value of `rs`, and a register written with its own value is the NOP. -/
theorem movCopiesOrDoesNothing : Obligations.MovCopiesOrDoesNothing := by
  intro s rd rs
  refine ⟨s.setReg rd (s.reg rs), exec_mov rd rs s, s.setReg_reg_same rd _, fun r hr => s.setReg_reg_other _ hr, ?_,
    rfl, rfl, rfl, ⟨rfl, rfl, rfl, rfl⟩, fun _ => rfl, rfl⟩
  rintro rfl
  exact s.setReg_self rd

end Sys2Proof.Machine

/-! Control transfer (44_control_transfer.md R210 to R218): JMP, and the return address that CALL leaves and RET takes. -/

namespace Sys2Proof

/-- An instruction keeps the word after its base word exactly where its opcode is of extended form (R83, R87). -/
@[simp] theorem Op.extendedWord_assemble (o : Op) (w ext : Word) :
    (o.assemble w ext).extendedWord = if o.isExtended then some ext else none := by
  cases o <;> rfl

end Sys2Proof

namespace Sys2Proof.Machine

/-! ## The extended word of the fetched instruction -/

/-- The extended word of the fetched instruction stands at `pc + 2` (R83). -/
theorem extendedWord_of_fetchDecode {s : State} {i : Instr} {a : Word} (h : s.fetchDecode = .ok i)
    (ha : i.extendedWord = some a) : a = s.fetchExt := by
  unfold State.fetchDecode decodeWords at h
  split at h
  · cases h
    obtain ⟨-, rfl⟩ : _ ∧ s.fetchExt = a := by simpa using ha
    rfl
  · cases h

/-! ## CALL and RET -/

/-- What CALL leaves: the return address stored just below the old `sp`, and `pc` at the target (R217). -/
theorem exec_call_pushes {s t : State} {target : Word} (h : exec (.call target) s = .next t) :
    t.pc = target ∧ t.sp = s.sp - 2 ∧ WordStored s t (s.sp - 2) (s.pc + 2) ∧ t.flags = s.flags ∧ KeepsRegs s t ∧
      KeepsEngine s t := by
  obtain rfl : (s.advancePc.pushWord (s.pc + 2)).setPc target = t := Host.Outcome.next.inj h
  exact ⟨rfl, State.pushWord_sp _ _, s.advancePc.pushWord_wordStored _, by simp, by simp [KeepsRegs],
    by simp [KeepsEngine]⟩

/-- RET takes `pc` from the word at the old `sp` (R218). -/
theorem exec_ret (s : State) : exec .ret s = .next (s.setPc (s.readWord s.sp)).dropWord := rfl

/-! ## The obligations -/

/-- Settles O43: the step is the execute phase, which writes `pc` alone, and the fetch decodes the target from the word
after the base word. -/
theorem jmpGoesToItsExtendedWord : Obligations.JmpGoesToItsExtendedWord := by
  refine ⟨fun s target => ⟨s.setPc target, rfl, rfl, rfl, rfl, fun _ => rfl, ⟨rfl, rfl, rfl, rfl⟩, fun _ => rfl, rfl⟩,
    fun s target rest hrun hdec => ?_⟩
  have hfetch := (fetchDecode_eq_ok_iff s (.jmp target)).2 ⟨rest, hdec⟩
  have htarget : target.toNat = s.wordValue (s.pc + 2) := by
    rw [extendedWord_of_fetchDecode hfetch rfl]
    exact s.readWord_toNat _
  exact ⟨s.beginExecute.setPc target, step_running hrun hfetch, htarget, rfl, rfl, rfl, fun _ => rfl,
    ⟨fun _ => rfl, rfl⟩, rfl, hrun, rfl, rfl⟩

/-- Settles O44: CALL always answers a next state, and it is the one with the return address pushed. -/
theorem callPushesReturnAddress : Obligations.CallPushesReturnAddress :=
  fun _ _ => ⟨_, rfl, exec_call_pushes rfl⟩

/-- Settles O45: the word read at the old `sp` has the value of the two bytes there. -/
theorem retPopsTheProgramCounter : Obligations.RetPopsTheProgramCounter := fun s =>
  ⟨_, exec_ret s, s.readWord_toNat s.sp, rfl, rfl, fun _ => rfl, ⟨rfl, rfl, rfl, rfl⟩, fun _ => rfl, rfl⟩

/-- Settles O46: RET reads at the `sp` that CALL left, where the return address reads back. -/
theorem retReturnsToAfterTheCall : Obligations.RetReturnsToAfterTheCall := by
  intro s t target hlow hhigh h
  obtain ⟨-, hsp, hstored, -, hregs, -⟩ := exec_call_pushes h
  obtain ⟨hword, -⟩ := hstored.reads_back hlow (word_sub_two_add_one s.sp ▸ hhigh)
  refine ⟨_, exec_ret t, ?_, ?_, hregs⟩
  · rw [hsp]
    exact hword
  · rw [State.dropWord_sp, State.setPc_sp, hsp, BitVec.sub_add_cancel]

end Sys2Proof.Machine

/-! The stack (45_stack.md R230, R231): PUSH stores a word below `sp`, POP reads the word at `sp`, and a POP after a PUSH
reads what the push left in memory. -/

namespace Sys2Proof.Machine

/-! ## A stored word with one byte on the console's address (R55, R56) -/

section
variable {s t : State} {a v : Word}

/-- With its low byte on the console's address, a stored word leaves the low byte that was there before. -/
theorem WordStored.wordValue_of_low_console (h : WordStored s t a v) (ha : a = s.cfg.consoleAddr) :
    t.wordValue a = (s.readByte a).toNat + 256 * (v.toNat / 256) := by
  obtain ⟨-, -, hhigh, hconsole, -⟩ := h
  rw [← ha] at hhigh hconsole
  rw [State.wordValue, hconsole, hhigh (word_succ_ne a)]

/-- With its high byte on the console's address, a stored word leaves the high byte that was there before. -/
theorem WordStored.wordValue_of_high_console (h : WordStored s t a v) (ha1 : a + 1 = s.cfg.consoleAddr) :
    t.wordValue a = v.toNat % 256 + 256 * (s.readByte (a + 1)).toNat := by
  obtain ⟨-, hlow, -, hconsole, -⟩ := h
  rw [← ha1] at hlow hconsole
  rw [State.wordValue, hconsole, hlow (word_succ_ne a).symm]

end

/-! ## PUSH and POP -/

/-- What PUSH leaves: its register's word stored just below the old `sp`, which is now at that word (R230). -/
theorem exec_push_stores {s t : State} {rd : Reg} (h : exec (.push rd) s = .next t) :
    t.sp = s.sp - 2 ∧ WordStored s t (s.sp - 2) (s.reg rd) ∧ t.pc = s.pc ∧ t.flags = s.flags ∧ KeepsRegs s t ∧
      KeepsEngine s t := by
  obtain rfl : s.pushWord (s.reg rd) = t := Host.Outcome.next.inj h
  exact ⟨State.pushWord_sp _ _, s.pushWord_wordStored _, by simp, by simp, by simp [KeepsRegs], by simp [KeepsEngine]⟩

/-- POP is the load of the word at the old `sp`, followed by the increment (R231). -/
theorem exec_pop (rd : Reg) (s : State) : exec (.pop rd) s = .next (s.setReg rd (s.readWord s.sp)).dropWord := rfl

/-! ## The obligations -/

/-- Settles O47: PUSH always answers a next state, and it is the one with the register's word stored. -/
theorem pushStoresBelowTheStackPointer : Obligations.PushStoresBelowTheStackPointer :=
  fun _ _ => ⟨_, rfl, exec_push_stores rfl⟩

/-- Settles O48: POP is a word load, and the increment after it touches `sp` alone. -/
theorem popReadsAtTheStackPointer : Obligations.PopReadsAtTheStackPointer := by
  intro s rd
  obtain ⟨hreg, hregs, hpc, -, hflags, hengine, hmem⟩ := s.setReg_readWord_loads rd s.sp
  exact ⟨_, exec_pop rd s, hreg, rfl, hregs, hpc, hflags, hengine, hmem⟩

/-- Settles O49: POP reads at the `sp` that PUSH left, so it takes whatever the stored word left in memory there: the
whole word, or the word but for the byte that fell on the console's address. -/
theorem popReturnsWhatWasPushed : Obligations.PopReturnsWhatWasPushed := by
  intro s t rd rd' h
  obtain ⟨htsp, hstored, -⟩ := exec_push_stores h
  obtain ⟨u, hpop, hread, husp, -⟩ := popReadsAtTheStackPointer t rd'
  rw [htsp] at hread husp
  rw [← word_sub_two_add_one s.sp]
  refine ⟨u, hpop, husp.trans (BitVec.sub_add_cancel _ _), fun hlow hhigh => ?_, fun hlow => ?_, fun hhigh => ?_⟩
  · obtain ⟨hword, -⟩ := hstored.reads_back hlow hhigh
    exact BitVec.eq_of_toNat_eq (hread.trans (hword ▸ (t.readWord_toNat _).symm))
  · exact hread.trans (hstored.wordValue_of_low_console hlow)
  · exact hread.trans (hstored.wordValue_of_high_console hhigh)

end Sys2Proof.Machine

/-! HALT (46_halt.md R240, R241). -/

namespace Sys2Proof.Machine

/-- HALT writes `halted` alone, so the flags stay (92_eei_decisions.md D8). -/
theorem exec_halt (s : State) : exec .halt s = .next s.halt := rfl

theorem State.halt_keepsRegs (s : State) : KeepsRegs s s.halt := s.halt_reg

theorem State.halt_keepsMemory (s : State) : KeepsMemory s s.halt := ⟨s.halt_readByte, s.halt_out⟩

theorem State.halt_normalEnd_iff (s : State) : s.halt.normalEnd ↔ s.illegal = false := by
  simp [State.normalEnd]

/-- Settles O50: the state that HALT leaves is halted, so it steps to itself. -/
theorem haltEndsTheRunNormally : Obligations.HaltEndsTheRunNormally :=
  fun s => ⟨s.halt, exec_halt s, s.halt_halted, s.halt_illegal, s.halt_cfg, s.halt_icount, s.halt_pc, s.halt_sp,
    s.halt_flags, s.halt_keepsRegs, s.halt_keepsMemory, s.halt_normalEnd_iff.2, core_run_of_halted s.halt_halted⟩

end Sys2Proof.Machine

/-! The exceptional event (60_exceptions.md R250 to R256): what a step at an illegal opcode leaves and reports, and that
nothing else marks the machine. -/

namespace Sys2Proof.Machine

/-- The offending value is the opcode field of the word at `pc` (R252). -/
theorem op_of_fetchDecode_error {s : State} {e : IllegalOpcode} (h : s.fetchDecode = .error e) :
    e.op = opField s.fetchBase := by
  unfold State.fetchDecode at h
  cases hl : s.cfg.opcodeMap.lookup (opField s.fetchBase) with
  | none =>
    simp only [decodeWords, hl] at h
    cases h
    rfl
  | some o => simp [decodeWords_of_lookup hl] at h

/-- The report is of the word that was fetched: it stands just below the advanced `pc`, and the event writes no memory
(R252). -/
theorem State.illegalReport_raiseIllegalOpcode (s : State) (e : IllegalOpcode) :
    (s.beginExecute.raiseIllegalOpcode e).illegalReport = some (⟨opField s.fetchBase⟩, s.fetchBase) := by
  simp [State.illegalReport, State.fetchBase]

/-- The mark, in terms of what the step fetches: a halted core keeps it, and no instruction writes it (R37). -/
theorem illegal_of_step {s t : State} (hunmarked : s.illegal = false) (h : step s = .next t) :
    t.illegal = true ↔ s.halted = false ∧ ∃ op, s.fetchDecode = .error ⟨op⟩ := by
  rcases step_cases h with ⟨hhalted, rfl⟩ | ⟨_, i, hd, hx⟩ | ⟨hrun, e, hd, rfl⟩
  · simp [hunmarked, hhalted]
  · obtain ⟨f, hf, rfl, -⟩ := effect_of_exec hx
    obtain ⟨-, killegal, -⟩ := hf.keeps_cfg_illegal_icount s.beginExecute
    simp [killegal, hunmarked, hd]
  · exact iff_of_true rfl ⟨hrun, e.op, hd⟩

/-! ## The obligations -/

/-- Settles O11: the step begins the execute phase and raises the event there, and the report reads the base word back. -/
theorem illegalOpcodeHaltsWithReport : Obligations.IllegalOpcodeHaltsWithReport := by
  intro s op hrun hdec
  have hd : s.fetchDecode = .error ⟨op⟩ := (fetchDecode_eq_error_iff s op).2 hdec
  have hop : op = opField s.fetchBase := op_of_fetchDecode_error hd
  have hreport := s.illegalReport_raiseIllegalOpcode ⟨op⟩
  rw [← hop] at hreport
  have hfield : s.fetchBase.toNat / 1024 = op.toNat := by rw [hop, opField_toNat]
  exact ⟨_, step_illegal hrun hd, rfl, rfl, rfl, rfl, rfl, rfl, rfl, fun _ => rfl, ⟨fun _ => rfl, rfl⟩,
    s.fetchBase, hreport, s.readWord_toNat s.pc, hfield⟩

/-- Settles O12: a step always answers, and its mark is decided by what it fetches. -/
theorem stepAlwaysAnswersAndOnlyIllegalOpcodeMarks : Obligations.StepAlwaysAnswersAndOnlyIllegalOpcodeMarks := by
  intro s
  obtain ⟨t, h⟩ := exists_step_eq_next s
  refine ⟨t, h, fun hunmarked => ?_⟩
  simp only [illegal_of_step hunmarked h, fetchDecode_eq_error_iff]

end Sys2Proof.Machine

/-! Reset and the host's load (70_reset_and_hazards.md R280 to R286): what they leave, and what they do not touch. -/

namespace Sys2Proof.Machine

/-! ## Reset (R280 to R282) -/

/-- Reset makes good whatever of the invariant does not rest on the parameters and memory, which it keeps. -/
theorem State.hostReset_inv {s : State} (hcfg : s.cfg.wf = true) (hmem : s.mem.wf = true) : s.hostReset.Inv :=
  ⟨hcfg, hmem, Nat.two_pow_pos _, fun hmarked => absurd hmarked Bool.false_ne_true⟩

theorem State.hostReset_keepsMemory (s : State) : KeepsMemory s s.hostReset := ⟨s.hostReset_readByte, s.hostReset_out⟩

theorem State.hostReset_bytesAtPc (s : State) :
    s.hostReset.bytesAtPc = [s.readByte 0, s.readByte 1, s.readByte 2, s.readByte 3] := rfl

/-- The execute phase of the first step after reset begins at address 2, with that step counted (R111, R114). -/
theorem State.hostReset_beginExecute (s : State) :
    s.hostReset.beginExecute = { s.hostReset with pc := 2, icount := 1 % 2 ^ s.cfg.icountBits } := rfl

/-! ## The host's load (R286) -/

/-- A read after bytes were stored from `k` on: the stored byte where there is one for the address, and every other byte
as it was. -/
theorem Memory.read_writeAll (m : Memory) (k : Nat) (bs : List Byte) (j : Nat) :
    (m.writeAll k bs).read j = if k ≤ j then bs.getD (j - k) (m.read j) else m.read j := by
  induction bs generalizing m k with
  | nil => simp [Memory.writeAll]
  | cons b bs ih =>
    rw [Memory.writeAll, ih, Memory.read_write]
    rcases Nat.lt_trichotomy j k with hlt | rfl | hgt
    · rw [if_neg (by omega), if_neg hlt.ne, if_neg hlt.not_ge]
    · simp
    · have hindex : j - k = j - (k + 1) + 1 := by omega
      rw [if_pos (by omega), if_neg hgt.ne', if_pos hgt.le, hindex, List.getD_cons_succ]

theorem State.hostLoad_of_not_fits (s : State) {base : Word} {image : List Byte}
    (h : 65536 < base.toNat + image.length) : s.hostLoad base image = none :=
  if_pos h

/-- A load that fits writes `mem` alone, past the memory port, so no byte reaches the console (92_eei_decisions.md D24). -/
theorem State.hostLoad_of_fits (s : State) {base : Word} {image : List Byte} (h : base.toNat + image.length ≤ 65536) :
    s.hostLoad base image = some { s with mem := s.mem.writeAll base.toNat image } :=
  if_neg h.not_gt

/-! ## The obligations -/

/-- Settles O25: the fields are reset's own, and the first step fetches the bytes at address 0 of the memory it kept. -/
theorem hostResetRestartsAtZero : Obligations.HostResetRestartsAtZero := by
  intro s
  refine ⟨s.hostReset_keepsMemory, s.hostReset_cfg, s.hostReset_sp, s.hostReset_flags, s.hostReset_reg,
    s.hostReset_halted, s.hostReset_illegal, s.hostReset_icount, s.hostReset_pc, fun i rest hdec => ?_⟩
  rw [← s.hostReset_bytesAtPc] at hdec
  rw [← s.hostReset_beginExecute]
  exact stepRunsDecodedInstruction s.hostReset i rest s.hostReset_halted hdec

/-- Settles O26: the load stores the image's bytes one after another, with no wrap since they fit. -/
theorem hostLoadCopiesTheImageOrFails : Obligations.HostLoadCopiesTheImageOrFails := fun s base image =>
  ⟨s.hostLoad_of_not_fits, fun hfits =>
    ⟨_, s.hostLoad_of_fits hfits, fun x => s.mem.read_writeAll base.toNat image x.toNat, rfl,
      fun hmem => Memory.wf_writeAll hmem hfits⟩⟩

/-- Settles O14: the reset state is a reset of itself, with allowed parameters and memory in canonical form. -/
theorem resetMeetsInvariant : Obligations.ResetMeetsInvariant := by
  unfold Obligations.ResetMeetsInvariant
  rw [← State.hostReset_reset]
  exact State.hostReset_inv (by decide) State.reset_mem_wf

end Sys2Proof.Machine
